-- ==== Sys2Proof/Word.lean ====
section
/-! DEFINITION. The machine's word types: the 8-bit byte of 00_scope.md R5 (cells, registers, addresses and the
program counter are all 8 bits wide) and the index of a general register. -/

namespace Sys2Proof

/-- An 8-bit unsigned value: a memory cell, a general register, an operand byte (00_scope.md R5; 10_state.md R10). -/
abbrev Byte := BitVec 8

/-- A memory address, and the program counter: 8 bits, 0..255 (00_scope.md R5; 10_state.md R14; 20_memory.md R30). -/
abbrev Addr := BitVec 8

/-- The index of a general register, 0..7 (10_state.md R10: "register index always in [0,7]"). -/
abbrev RegIdx := Fin 8

end Sys2Proof
end

