-- ==== Sys2Proof/Config.lean ====
section
/-! DEFINITION. The parameters of 00_scope.md R5. This hardware leaves no value open inside a run (40_execution_cycle.md
R72), so there is no free value here. -/

namespace Sys2Proof

/-- `MEM_SIZE`: the number of memory cells (00_scope.md R5). -/
def Config.memSize : Nat := 256

/-- `SP_INDEX`: the register used as stack pointer (00_scope.md R5; 10_state.md R12). -/
def Config.spIndex : RegIdx := 7

/-- `SP_RESET`: the reset value of the stack pointer (00_scope.md R5; 10_state.md R25). -/
def Config.spReset : Byte := 0xF4#8

/-- `RESET_GPR`: the reset value of registers 0 to 6 (00_scope.md R5; 10_state.md R25). The source states none; 0x00 is
the spec's decision D11. DESIGN CHOICE (the spec's, log entry 2), unsafe: a proof could lean on it. -/
def Config.resetGpr : Byte := 0x00#8

/-- `PC_RESET`: the reset value of the program counter (00_scope.md R5; 10_state.md R25). -/
def Config.pcReset : Addr := 0x00#8

/-- The value of every memory cell after reset (10_state.md R21, R25), which an unlisted address reads as. -/
def Config.memReset : Byte := 0x00#8

end Sys2Proof
end

