-- ==== Sys2Proof/Machine/State.lean ====
section
/-! DEFINITION. The state of the engine: exactly the tuple `(x[0..7], pc, E, L, G, running, fault, mem[0..255], out)` of
10_state.md, as plain data, its value after reset (R25), and the names of the faults and of the refusals. -/

namespace Sys2Proof.Machine

/-- The faults of 60_exceptions.md R131. A fault is TAKEN as R133 describes: `State.raise` records it in `State.fault`
and clears `running`, in a NEXT state; no step of this model answers `Host.Outcome.fault` (log entry 4). -/
inductive Fault where
  /-- Code 1: the opcode byte is not one of the 17. Raised by the fetch of any step (`State.raiseDecode`). Safe: it is
  the behaviour the spec states. -/
  | invalidInstruction
  /-- Code 2: an operand byte, or the successor of an instruction that falls through or is CALL, would lie at 256.
  Raised by every instruction but HLT and RET. Safe: it is the behaviour the spec states (its decision D3). -/
  | addressOutOfRange
  /-- Code 3: a register-index operand byte is above 7. Raised by every instruction with a register operand. Safe: it is
  the behaviour the spec states (its decision D4). -/
  | invalidRegisterIndex
  /-- Code 4: a push with `x[7] = 0`. Raised by PUSH and CALL. Safe: it is the behaviour the spec states (D5, D6). -/
  | stackOverflow
  /-- Code 5: a pop with `x[7] = 255`, or `POP r7` of the value 255. Raised by POP and RET. Safe: it is the behaviour
  the spec states (D5, D6). -/
  | stackUnderflow
  /-- Code 6: an ALU operation tag outside the seven. Raised by nothing: the tag type `AluOp` has seven values
  (43_alu.md R101). Safe. -/
  | unsupportedOperation
  deriving DecidableEq, Repr

/-- Why the model gives no meaning. No instruction and no step is refused; the last three are the host operations'. -/
inductive Refusal where
  /-- An instruction not modelled yet. Raised by no arm of `exec`: every instruction has its meaning. Safe. -/
  | notModelled (mnemonic : String)
  /-- `Load` of more than 256 bytes (70_reset_and_hazards.md R163). Raised by `hostLoad`. Safe: nothing is written and
  the host must not go on. -/
  | programTooLarge
  /-- A host operation outside the sequence Reset, Load (one or more), Run (70_reset_and_hazards.md R162), or a read of
  the state before Run (R168). Raised by `hostLoad`, `hostRun` and `hostObserve`. Safe: the spec gives such a sequence no meaning. -/
  | outOfSequence
  /-- A host operation while `running = 1` (70_reset_and_hazards.md R168). Raised by `hostReset`, `hostLoad`, `hostRun`
  and `hostObserve`. Safe: the spec has no such move. -/
  | engineRunning
  deriving DecidableEq, Repr

/-- The fault record's triple (10_state.md R20): the cause, the address of the faulting instruction's opcode byte, and
a number whose meaning depends on the cause (60_exceptions.md R131). -/
structure FaultRecord where
  cause : Fault
  faultPc : Addr
  faultInfo : Nat
  deriving DecidableEq, Repr

/-- The three single-bit flags equal, less-than and greater-than (10_state.md R17, R18). -/
structure Flags where
  e : Bool
  l : Bool
  g : Bool
  deriving DecidableEq, Repr

/-- The 256 cells of 10_state.md R21 as (address, byte) pairs, in the canonical form `Memory.wf` (Ops.lean; log entry 1). An unlisted
address reads as `Config.memReset`. -/
abbrev Memory := List Host.Cell

/-- The complete state of the machine (10_state.md, first lines; R23: there is no other). -/
structure State where
  /-- The general registers `x[0]` to `x[7]`; `x[7]` is the stack pointer (R10, R12). -/
  regs : Vector Byte 8
  /-- The program counter: the address of the next opcode byte (R14). -/
  pc : Addr
  /-- E, L and G (R17). -/
  flags : Flags
  /-- The running flag (R19). -/
  running : Bool
  /-- The fault record, `none` for the spec's `None` (R20). -/
  fault : Option FaultRecord
  /-- The memory (R21). -/
  mem : Memory
  /-- The output stream, oldest element first (R22). -/
  out : List Byte
  deriving DecidableEq, Repr

/-- The reset state, the table of 10_state.md R25 (70_reset_and_hazards.md R160; log entries 2 and 10). -/
def State.reset : State where
  regs := #v[Config.resetGpr, Config.resetGpr, Config.resetGpr, Config.resetGpr, Config.resetGpr, Config.resetGpr,
    Config.resetGpr, Config.spReset]
  pc := Config.pcReset
  flags := ⟨false, false, false⟩
  running := false
  fault := none
  mem := []
  out := []

/-- What a step answers. -/
abbrev Out := Host.Outcome State Fault Refusal

end Sys2Proof.Machine
end

