-- ==== Sys2Proof/Machine/Flags.lean ====
section
/-! DEFINITION. The one flag computation of the hardware: CMP's (43_alu.md R94, R99). -/

namespace Sys2Proof.Machine

/-- E iff equal, L iff less, G iff greater, comparing unsigned values 0..255 (43_alu.md R94). -/
def compareFlags (u v : Byte) : Flags where
  e := decide (u.toNat = v.toNat)
  l := decide (u.toNat < v.toNat)
  g := decide (u.toNat > v.toNat)

end Sys2Proof.Machine
end

