-- ==== Sys2Proof/Machine/Ops.lean ====
section
/-! DEFINITION. The named operations over registers, memory, stack, program counter and output, and TAKING A FAULT as one
shared operation (60_exceptions.md R133). There is no return from a fault (R135). -/

namespace Sys2Proof.Machine

/-! ### Memory: 20_memory.md R31, R32 -/

/-- The byte listed for address `k`, or what an unlisted address reads as (10_state.md R21, R25). -/
def Memory.get : Memory → Nat → Byte
  | [], _ => Config.memReset
  | (j, v) :: m, k => if j = k then v else Memory.get m k

/-- Drop every entry of address `k`. -/
def Memory.erase : Memory → Nat → Memory
  | [], _ => []
  | (j, v) :: m, k => if j = k then Memory.erase m k else (j, v) :: Memory.erase m k

/-- Insert an entry before the first one with a larger address. -/
def Memory.insert : Memory → Nat → Byte → Memory
  | [], k, v => [(k, v)]
  | (j, u) :: m, k, v => if k < j then (k, v) :: (j, u) :: m else (j, u) :: Memory.insert m k v

/-- Write one byte, keeping the canonical form: a cell holding what an unlisted address reads as is not listed. -/
def Memory.put (m : Memory) (k : Nat) (v : Byte) : Memory :=
  if v = Config.memReset then Memory.erase m k else Memory.insert (Memory.erase m k) k v

/-- Every listed address is at least `low` and inside the memory, addresses rise strictly, and no entry equals what an
unlisted address reads as. -/
def Memory.wfFrom : Nat → Memory → Bool
  | _, [] => true
  | low, (j, v) :: m => decide (low ≤ j) && decide (j < Config.memSize) && decide (v ≠ Config.memReset) && Memory.wfFrom (j + 1) m

/-- `Memory.wf`: the canonical form of the memory. -/
def Memory.wf (m : Memory) : Bool := Memory.wfFrom 0 m

/-- `MemRead(addr, 1)` (20_memory.md R31). Every 8-bit address exists, so the read is total. -/
def State.memRead (s : State) (a : Addr) : Byte := Memory.get s.mem a.toNat

/-- `MemWrite(addr, 1, v)` (20_memory.md R32): that cell and no other state. -/
def State.memWrite (s : State) (a : Addr) (v : Byte) : State := { s with mem := Memory.put s.mem a.toNat v }

/-! ### Registers, program counter, output -/

/-- `x[i]` (00_scope.md §6; 10_state.md R10: no register is hard-wired). -/
def State.reg (s : State) (i : RegIdx) : Byte := s.regs[i]

/-- `x[i] <- v`. -/
def State.setReg (s : State) (i : RegIdx) (v : Byte) : State := { s with regs := s.regs.set i v }

/-- `SP`, another name for `x[7]` (10_state.md R12). -/
def State.sp (s : State) : Byte := s.reg Config.spIndex

/-- `pc <- target`. -/
def State.setPc (s : State) (target : Addr) : State := { s with pc := target }

/-- `pc <- pc + len` (40_execution_cycle.md R70). The successor check has established that the sum is at most 255, so
the 8-bit sum is the exact one (10_state.md R16). -/
def State.advance (s : State) (len : Nat) : State := s.setPc (s.pc + BitVec.ofNat 8 len)

/-- Write E, L and G, all three at once (43_alu.md R94). -/
def State.setFlags (s : State) (f : Flags) : State := { s with flags := f }

/-- `Output(v)`: append to the output stream (10_state.md R22, 41_system.md R81). -/
def State.output (s : State) (v : Byte) : State := { s with out := s.out ++ [v] }

/-- `running <- 0` and nothing else (41_system.md R80). -/
def State.halt (s : State) : State := { s with running := false }

/-! ### The stack micro-operations: 44_stack.md R106, R107 -/

/-- The effective address of a push: the stack pointer minus 1 (44_stack.md R106). The stack-pointer check has
established that the stack pointer is not 0. -/
def State.pushAddr (s : State) : Addr := s.sp - 1

/-- `x[7] <- x[7] - 1`, the first action of a push. -/
def State.decSp (s : State) : State := s.setReg Config.spIndex s.pushAddr

/-- `Push(v)` (44_stack.md R106): the stack pointer is decremented first, and `value` is read from the state AFTER that
(44_stack.md R108), then written at the new stack pointer. -/
def State.push (s : State) (value : State → Byte) : State :=
  s.decSp.memWrite s.pushAddr (value s.decSp)

/-- The byte a pop reads: the cell at the stack pointer (44_stack.md R107). -/
def State.popValue (s : State) : Byte := s.memRead s.sp

/-- `x[7] <- x[7] + 1`, the last action of a pop. -/
def State.incSp (s : State) : State := s.setReg Config.spIndex (s.sp + 1)

/-! ### Taking a fault: 60_exceptions.md R133 -/

/-- `raise F(info)`: `running <- 0`, `fault <- (F, pc, info)`, nothing else (60_exceptions.md R133). -/
def State.raise (s : State) (f : Fault) (info : Nat) : State :=
  { s with running := false, fault := some ⟨f, s.pc, info⟩ }

/-- The numeric code of a cause (60_exceptions.md R131). -/
def faultCode : Fault → Nat
  | .invalidInstruction => 1
  | .addressOutOfRange => 2
  | .invalidRegisterIndex => 3
  | .stackOverflow => 4
  | .stackUnderflow => 5
  | .unsupportedOperation => 6

/-- The numeric code of the fault record: 0 while no fault has occurred (60_exceptions.md R131). -/
def State.faultCode (s : State) : Nat :=
  match s.fault with
  | none => 0
  | some r => Sys2Proof.Machine.faultCode r.cause

/-- An attempt at stages 3 to 7 of a step: the fault of the first check that fails, or the value (40_execution_cycle.md
R66: "raises exactly one fault at the first stage whose check fails"). -/
abbrev Attempt := Except (Fault × Nat)

/-- The step's outcome: the new state, or the OLD state with the fault taken, no effect of the instruction kept
(40_execution_cycle.md R69). -/
def State.attempt (s : State) : Attempt State → Out
  | .ok t => .next t
  | .error (f, info) => .next (s.raise f info)

end Sys2Proof.Machine
end

