-- ==== Sys2Proof/Machine/Operands.lean ====
section
/-! DEFINITION. The operand forms and the checks on them: stages 3 to 6 of 40_execution_cycle.md R68 (the spec's
decisions D3 to D6 and D9, log entry 9). -/

namespace Sys2Proof.Machine

/-- Stage 3: `pc + len - 1 <= 255`, every operand byte lies inside memory. The sum is on natural numbers. -/
def operandsInMemory (s : State) (len : Nat) : Attempt Unit :=
  if s.pc.toNat + len - 1 > 255 then .error (.addressOutOfRange, 256) else .ok ()

/-- Stages 4a and 4b: a register-index operand is the whole byte, valid in 0..7, no bit ignored or masked
(30_encoding.md R52). -/
def regIndex (a : Byte) : Attempt RegIdx :=
  if h : a.toNat < 8 then .ok ⟨a.toNat, h⟩ else .error (.invalidRegisterIndex, a.toNat)

/-- Stage 5a, of PUSH and CALL: the decrement must not give -1 (44_stack.md R110). -/
def pushRoom (s : State) : Attempt Unit :=
  if s.sp = 0x00#8 then .error (.stackOverflow, 0) else .ok ()

/-- Stage 5b, of POP and RET: the value about to be incremented into the stack pointer must not be 255, or the
increment would give 256 (44_stack.md R110). -/
def popRoom (v : Byte) : Attempt Unit :=
  if v = 0xFF#8 then .error (.stackUnderflow, 0) else .ok ()

/-- The value `POP a` increments into the stack pointer: the popped value when `a` is 7, since `x[a] <- v` comes first,
and the old stack pointer otherwise (44_stack.md R109, R110). -/
def popIncrementee (s : State) (a : RegIdx) : Byte :=
  if a = Config.spIndex then s.popValue else s.sp

/-- Stage 6, of an instruction that falls through and of CALL: `pc + len <= 255`. -/
def successorInMemory (s : State) (len : Nat) : Attempt Unit :=
  if s.pc.toNat + len > 255 then .error (.addressOutOfRange, 256) else .ok ()

end Sys2Proof.Machine
end

