-- ==== Sys2Proof/Machine/Alu.lean ====
section
/-! DEFINITION. The ALU block (43_alu.md R90, R91) and the seven instructions it executes (R92 to R98). -/

namespace Sys2Proof.Machine

/-- The seven operation tags of 43_alu.md R90, symbolic. The type has no other value, so `UnsupportedOperation` cannot
arise (R101). -/
inductive AluOp where
  | add
  | mult
  | cmp
  | and
  | or
  | xor
  | not
  deriving DecidableEq, Repr

/-- The ALU, `alu(op, a_index, b_index)`: a side effect on `x[a_index]`, or for CMP on the flags. Both sources are read
before the destination is written (43_alu.md R91); NOT does not read the second. Arithmetic wraps modulo 256 (R100). -/
def State.alu (s : State) (op : AluOp) (a b : RegIdx) : State :=
  match op with
  | .add => s.setReg a (s.reg a + s.reg b)
  | .mult => s.setReg a (s.reg a * s.reg b)
  | .cmp => s.setFlags (compareFlags (s.reg a) (s.reg b))
  | .and => s.setReg a (s.reg a &&& s.reg b)
  | .or => s.setReg a (s.reg a ||| s.reg b)
  | .xor => s.setReg a (s.reg a ^^^ s.reg b)
  | .not => s.setReg a (s.reg a ^^^ 0xFF#8)

/-- What the six two-operand ALU instructions share: format F2, the checks in order, the ALU, `pc <- pc + 3`
(43_alu.md §2, "Common to the six two-operand instructions"). -/
def aluTwoOperand (op : AluOp) (a b : Byte) (s : State) : Out := s.attempt do
  operandsInMemory s 3
  let ra ← regIndex a
  let rb ← regIndex b
  successorInMemory s 3
  return (s.alu op ra rb).advance 3

/-- MUL a, b (43_alu.md R92; the ALU tag is MULT, 90_conflicts.md C7). -/
def execMul (a b : Byte) (s : State) : Out := aluTwoOperand .mult a b s

/-- ADD a, b (43_alu.md R93). -/
def execAdd (a b : Byte) (s : State) : Out := aluTwoOperand .add a b s

/-- CMP a, b (43_alu.md R94). -/
def execCmp (a b : Byte) (s : State) : Out := aluTwoOperand .cmp a b s

/-- AND a, b (43_alu.md R95). -/
def execAnd (a b : Byte) (s : State) : Out := aluTwoOperand .and a b s

/-- OR a, b (43_alu.md R96). -/
def execOr (a b : Byte) (s : State) : Out := aluTwoOperand .or a b s

/-- XOR a, b (43_alu.md R97). -/
def execXor (a b : Byte) (s : State) : Out := aluTwoOperand .xor a b s

/-- NOT a (43_alu.md R98); the ALU's second index is unused. -/
def execNot (a : Byte) (s : State) : Out := s.attempt do
  operandsInMemory s 2
  let ra ← regIndex a
  successorInMemory s 2
  return (s.alu .not ra ra).advance 2

end Sys2Proof.Machine
end

