-- ==== Sys2Proof/Machine/Control.lean ====
section
/-! DEFINITION. CALL, RET, JMP, JEQ and JNE (45_control.md R115 to R123). -/

namespace Sys2Proof.Machine

/-- CALL a (45_control.md R116): push the return address `pc + 2`, then read the target, so `CALL r7` jumps to the
decremented stack pointer (DEDUCED from the statement order, log entry 13). Its return address must be an address (40_execution_cycle.md R68 stage 6). -/
def execCall (a : Byte) (s : State) : Out := s.attempt do
  operandsInMemory s 2
  let ra ← regIndex a
  pushRoom s
  successorInMemory s 2
  let pushed := s.push fun _ => s.pc + 2
  return pushed.setPc (pushed.reg ra)

/-- RET (45_control.md R117): the popped byte is the new program counter, whatever it is (R122). -/
def execRet (s : State) : Out := s.attempt do
  popRoom s.sp
  return s.incSp.setPc s.popValue

/-- What the jumps share: the target is the full 8-bit value of a register (45_control.md R115); a jump not taken falls
through, and only then is the successor checked (40_execution_cycle.md R68, R70). -/
def jumpIf (taken : Bool) (a : Byte) (s : State) : Out := s.attempt do
  operandsInMemory s 2
  let ra ← regIndex a
  if taken then
    return s.setPc (s.reg ra)
  else
    successorInMemory s 2
    return s.advance 2

/-- JMP a (45_control.md R118). -/
def execJmp (a : Byte) (s : State) : Out := jumpIf true a s

/-- JEQ a (45_control.md R119): taken when E = 1. -/
def execJeq (a : Byte) (s : State) : Out := jumpIf s.flags.e a s

/-- JNE a (45_control.md R120): taken when E = 0. -/
def execJne (a : Byte) (s : State) : Out := jumpIf (!s.flags.e) a s

end Sys2Proof.Machine
end

