-- ==== Sys2Proof/Machine/Stack.lean ====
section
/-! DEFINITION. PUSH and POP (44_stack.md R108 to R110). -/

namespace Sys2Proof.Machine

/-- PUSH a (44_stack.md R108). `x[a]` is read after the decrement, so `PUSH r7` stores the decremented stack pointer
(DEDUCED from the statement order, log entry 13). -/
def execPush (a : Byte) (s : State) : Out := s.attempt do
  operandsInMemory s 2
  let ra ← regIndex a
  pushRoom s
  successorInMemory s 2
  return (s.push fun t => t.reg ra).advance 2

/-- POP a (44_stack.md R109). The increment reads `x[7]` after the write of `x[a]`, so `POP r7` leaves the popped value
plus 1 (DEDUCED from the statement order, log entry 13). -/
def execPop (a : Byte) (s : State) : Out := s.attempt do
  operandsInMemory s 2
  let ra ← regIndex a
  popRoom (popIncrementee s ra)
  successorInMemory s 2
  return (s.setReg ra s.popValue).incSp.advance 2

end Sys2Proof.Machine
end

