-- ==== Sys2Proof/Machine/System.lean ====
section
/-! DEFINITION. HLT and PRN (41_system.md), and LDI (42_ldi.md). -/

namespace Sys2Proof.Machine

/-- HLT (41_system.md R80): `running <- 0`; the program counter stays (D7, log entry 3). No check can fail. -/
def execHlt (s : State) : Out := s.attempt (return s.halt)

/-- PRN a (41_system.md R81). -/
def execPrn (a : Byte) (s : State) : Out := s.attempt do
  operandsInMemory s 2
  let ra ← regIndex a
  successorInMemory s 2
  return (s.output (s.reg ra)).advance 2

/-- LDI a, imm8 (42_ldi.md R85). Operand2 is an immediate and is never checked as a register index. -/
def execLdi (a imm8 : Byte) (s : State) : Out := s.attempt do
  operandsInMemory s 3
  let ra ← regIndex a
  successorInMemory s 3
  return (s.setReg ra imm8).advance 3

end Sys2Proof.Machine
end

