-- ==== Sys2Proof/Syntax.lean ====
section
/-! DEFINITION. The instructions: one constructor per row of spec/opcode_table.json, in the table's order
(30_encoding.md R54). A register operand is kept as the WHOLE operand byte, since a byte above 7 is a legal encoding
whose execution raises InvalidRegisterIndex (30_encoding.md R52). -/

namespace Sys2Proof

/-- The 17 instructions of 30_encoding.md R54; `a`, `b` are register-index operand bytes, `imm8` an immediate. -/
inductive Instr where
  /-- HLT (41_system.md R80). -/
  | hlt
  /-- LDI a, imm8 (42_ldi.md R85). -/
  | ldi (a imm8 : Byte)
  /-- PRN a (41_system.md R81). -/
  | prn (a : Byte)
  /-- MUL a, b (43_alu.md R92). -/
  | mul (a b : Byte)
  /-- ADD a, b (43_alu.md R93). -/
  | add (a b : Byte)
  /-- CMP a, b (43_alu.md R94). -/
  | cmp (a b : Byte)
  /-- AND a, b (43_alu.md R95). -/
  | and (a b : Byte)
  /-- OR a, b (43_alu.md R96). -/
  | or (a b : Byte)
  /-- XOR a, b (43_alu.md R97). -/
  | xor (a b : Byte)
  /-- NOT a (43_alu.md R98). -/
  | not (a : Byte)
  /-- PUSH a (44_stack.md R108). -/
  | push (a : Byte)
  /-- POP a (44_stack.md R109). -/
  | pop (a : Byte)
  /-- CALL a (45_control.md R116). -/
  | call (a : Byte)
  /-- RET (45_control.md R117). -/
  | ret
  /-- JMP a (45_control.md R118). -/
  | jmp (a : Byte)
  /-- JEQ a (45_control.md R119). -/
  | jeq (a : Byte)
  /-- JNE a (45_control.md R120). -/
  | jne (a : Byte)
  deriving DecidableEq, Repr

end Sys2Proof
end

