-- ==== Sys2Proof/Decode.lean ====
section
/-! DEFINITION. The dispatch table of 30_encoding.md R54, the decoder (R55: a lookup of the whole opcode byte; the length
is a function of that byte alone, R51), and after it the encoder. -/

namespace Sys2Proof

/-- Why bytes are not an instruction. -/
inductive DecodeError where
  /-- The opcode byte is not one of the 17 values (30_encoding.md R56). -/
  | invalidOpcode (op : Byte)
  /-- The bytes end before the instruction's last byte (40_execution_cycle.md R68 stage 3). -/
  | missingBytes
  deriving DecidableEq, Repr

/-- An entry of the dispatch table: the format (30_encoding.md R50) and the instruction its operand bytes give. -/
inductive Form where
  /-- F0: one byte, no operand. -/
  | f0 (i : Instr)
  /-- F1: two bytes, operand1. -/
  | f1 (mk : Byte → Instr)
  /-- F2: three bytes, operand1 and operand2. -/
  | f2 (mk : Byte → Byte → Instr)

/-- `nops`: the number of operand bytes of a format (30_encoding.md R50, R55). -/
def Form.nops : Form → Nat
  | .f0 _ => 0
  | .f1 _ => 1
  | .f2 _ => 2

/-- `Decode(b)`, the dispatch table: all eight bits of the opcode byte against the 17 values (30_encoding.md R54, R55);
`none` is the spec's `invalid` (R56). -/
def opcodeForm (op : Byte) : Option Form :=
  match op.toNat with
  | 0b00000001 => some (.f0 .hlt)
  | 0b10000010 => some (.f2 .ldi)
  | 0b01000111 => some (.f1 .prn)
  | 0b10100010 => some (.f2 .mul)
  | 0b10100000 => some (.f2 .add)
  | 0b10100111 => some (.f2 .cmp)
  | 0b10101000 => some (.f2 .and)
  | 0b10101010 => some (.f2 .or)
  | 0b10101011 => some (.f2 .xor)
  | 0b01101001 => some (.f1 .not)
  | 0b01000101 => some (.f1 .push)
  | 0b01000110 => some (.f1 .pop)
  | 0b01010000 => some (.f1 .call)
  | 0b00010001 => some (.f0 .ret)
  | 0b01010100 => some (.f1 .jmp)
  | 0b01010101 => some (.f1 .jeq)
  | 0b01010110 => some (.f1 .jne)
  | _ => none

/-- The operand bytes, operand1 first, in ascending address order (20_memory.md R35). -/
def Form.fill : Form → List Byte → Except DecodeError (Instr × List Byte)
  | .f0 i, rest => .ok (i, rest)
  | .f1 mk, a :: rest => .ok (mk a, rest)
  | .f1 _, [] => .error .missingBytes
  | .f2 mk, a :: b :: rest => .ok (mk a b, rest)
  | .f2 _, [_] => .error .missingBytes
  | .f2 _, [] => .error .missingBytes

/-- Decode the instruction at the head of a byte list; the rest of the list is returned. The opcode is looked up before
any operand byte is asked for, so an invalid opcode is reported whatever follows it (30_encoding.md R56, R59). -/
def decode : List Byte → Except DecodeError (Instr × List Byte)
  | [] => .error .missingBytes
  | op :: rest =>
    match opcodeForm op with
    | none => .error (.invalidOpcode op)
    | some f => f.fill rest

/-- The opcode byte of an instruction (30_encoding.md R54, column "opcode (binary)"). -/
def opcodeByte : Instr → Byte
  | .hlt => 0b00000001#8
  | .ldi _ _ => 0b10000010#8
  | .prn _ => 0b01000111#8
  | .mul _ _ => 0b10100010#8
  | .add _ _ => 0b10100000#8
  | .cmp _ _ => 0b10100111#8
  | .and _ _ => 0b10101000#8
  | .or _ _ => 0b10101010#8
  | .xor _ _ => 0b10101011#8
  | .not _ => 0b01101001#8
  | .push _ => 0b01000101#8
  | .pop _ => 0b01000110#8
  | .call _ => 0b01010000#8
  | .ret => 0b00010001#8
  | .jmp _ => 0b01010100#8
  | .jeq _ => 0b01010101#8
  | .jne _ => 0b01010110#8

/-- The operand bytes of an instruction in address order (30_encoding.md R50, R54). -/
def operandBytes : Instr → List Byte
  | .hlt => []
  | .ldi a imm8 => [a, imm8]
  | .prn a => [a]
  | .mul a b => [a, b]
  | .add a b => [a, b]
  | .cmp a b => [a, b]
  | .and a b => [a, b]
  | .or a b => [a, b]
  | .xor a b => [a, b]
  | .not a => [a]
  | .push a => [a]
  | .pop a => [a]
  | .call a => [a]
  | .ret => []
  | .jmp a => [a]
  | .jeq a => [a]
  | .jne a => [a]

/-- The bytes of an instruction: the opcode, then its operands (30_encoding.md R50). -/
def encode (i : Instr) : List Byte := opcodeByte i :: operandBytes i

/-- The length in bytes, 1 + `nops` (30_encoding.md R55, R54 column "length"). -/
def instrLength (i : Instr) : Nat := 1 + (operandBytes i).length

/-- Byte `k` of an instruction whose bits are the low `nbits` of `w`, the first byte least significant, every bit above
`nbits` zero (the numbering of spec/opcode_table.json). -/
def tableByte (nbits w k : Nat) : Byte := BitVec.ofNat 8 (w % 2 ^ nbits / 2 ^ (8 * k))

/-- The longest instruction's three bytes of a table word, in address order. -/
def tableBytes (nbits w : Nat) : List Byte := [tableByte nbits w 0, tableByte nbits w 1, tableByte nbits w 2]

/-- What the decoder reads from an instruction given as the opcode table numbers its bits. -/
def decodeTableWord (nbits w : Nat) : Option Instr :=
  match decode (tableBytes nbits w) with
  | .ok (i, _) => some i
  | .error _ => none

end Sys2Proof
end

