-- ==== Sys2Proof/Machine/Fetch.lean ====
section
/-! DEFINITION. Fetching an instruction's bytes (40_execution_cycle.md R66 stages 1 to 3, R67), the faults of decoding,
and placing a table word where the next instruction is fetched. -/

namespace Sys2Proof.Machine

/-- The `n` operand bytes from address `k` upward, each a one-byte read; a byte above 255 does not exist and ends the
list (20_memory.md R34). -/
def State.fetchOperands (s : State) : Nat → Nat → List Byte
  | _, 0 => []
  | k, n + 1 => if k ≤ 255 then s.memRead (BitVec.ofNat 8 k) :: State.fetchOperands s (k + 1) n else []

/-- The bytes a step reads: the opcode at `pc`, then exactly the operand bytes its opcode has (40_execution_cycle.md
R67). An invalid opcode has none (30_encoding.md R56). -/
def State.fetchBytes (s : State) : List Byte :=
  s.memRead s.pc ::
    match opcodeForm (s.memRead s.pc) with
    | none => []
    | some f => s.fetchOperands (s.pc.toNat + 1) f.nops

/-- The fault of bytes that do not decode: stage 2 InvalidInstruction with the opcode byte, stage 3 AddressOutOfRange
with 256 (40_execution_cycle.md R68). -/
def State.raiseDecode (s : State) : DecodeError → State
  | .invalidOpcode op => s.raise .invalidInstruction op.toNat
  | .missingBytes => s.raise .addressOutOfRange 256

/-- Write bytes from address `k` upward; a byte that would lie above 255 is not written. -/
def State.writeBytes (s : State) : Nat → List Byte → State
  | _, [] => s
  | k, b :: bs => if k ≤ 255 then State.writeBytes (s.memWrite (BitVec.ofNat 8 k) b) (k + 1) bs else s

/-- The state with a table word's bytes at the program counter and the engine started, which is what Load and Run do
for the first instruction (70_reset_and_hazards.md R163, R165; log entry 5). -/
def State.placeWord (s : State) (nbits w : Nat) : State :=
  { s.writeBytes s.pc.toNat (tableBytes nbits w) with running := true }

end Sys2Proof.Machine
end

