-- ==== Sys2Proof/Machine/Step.lean ====
section
/-! DEFINITION. One step of the engine (40_execution_cycle.md R65, R66). -/

namespace Sys2Proof.Machine

/-- `Step()`: when `running = 0` nothing happens (40_execution_cycle.md R65); when `running = 1` the bytes at `pc` are
fetched and decoded, and the instruction runs, or the fault of stage 2 or 3 is taken, in a next state (log entry 4). -/
def step (s : State) : Host.Outcome State Fault Refusal :=
  if s.running then
    match decode s.fetchBytes with
    | .ok (i, _) => exec i s
    | .error e => .next (s.raiseDecode e)
  else .next s

/-- The state in which the very next step runs the instruction whose table word is `w` (log entry 5). -/
def State.withFetchWord (s : State) (nbits w : Nat) : State := s.placeWord nbits w

end Sys2Proof.Machine
end

