-- ==== Sys2Proof/Machine/HostOps.lean ====
section
/-! DEFINITION. What the host may do: Reset, Load, Run, and reading the state after the run (10_state.md R24;
70_reset_and_hazards.md R160 to R168). The engine's state is `State`; the host's own bookkeeping of the sequence stands
beside it (log entry 6). -/

namespace Sys2Proof.Machine

/-- Where the host stands in the sequence Reset, Load (one or more), Run (70_reset_and_hazards.md R162, D12). -/
inductive HostPhase where
  /-- Reset, nothing loaded. -/
  | fresh
  /-- At least one Load accepted, no Run since reset. -/
  | loaded
  /-- Run has been called. -/
  | started
  deriving DecidableEq, Repr

/-- The engine, and the host's place in its sequence. -/
structure Session where
  engine : State
  phase : HostPhase
  deriving DecidableEq, Repr

/-- What a host operation answers. -/
abbrev HostOut := Host.Outcome Session Fault Refusal

/-- The session right after construction (70_reset_and_hazards.md R160). -/
def Session.start : Session := ⟨State.reset, .fresh⟩

/-- Reset (70_reset_and_hazards.md R160): every piece of state to its reset value. The host has no such move during a
run (R168; log entry 11). -/
def hostReset (h : Session) : HostOut :=
  if h.engine.running then .refused .engineRunning else .next Session.start

/-- The copy of Load (70_reset_and_hazards.md R163): `bytes` to addresses 0 upward; only memory changes. -/
def State.loadBytes (s : State) (bytes : List Byte) : State := s.writeBytes 0 bytes

/-- Load (70_reset_and_hazards.md R163): needs `running = 0` and no Run since reset; the length is checked before any
write. -/
def hostLoad (bytes : List Byte) (h : Session) : HostOut :=
  if h.engine.running then .refused .engineRunning
  else if h.phase = .started then .refused .outOfSequence
  else if bytes.length > Config.memSize then .refused .programTooLarge
  else .next ⟨h.engine.loadBytes bytes, .loaded⟩

/-- `running <- 1` and nothing else (70_reset_and_hazards.md R165). -/
def State.start (s : State) : State := { s with running := true }

/-- Run (70_reset_and_hazards.md R165): given a meaning only after Reset and one or more Loads (R162, D12). -/
def hostRun (h : Session) : HostOut :=
  if h.engine.running then .refused .engineRunning
  else if h.phase = .loaded then .next ⟨h.engine.start, .started⟩
  else .refused .outOfSequence

/-- The host operations of 10_state.md R24. -/
inductive HostOp where
  | reset
  | load (bytes : List Byte)
  | run
  deriving DecidableEq, Repr

/-- One host operation. -/
def hostOp : HostOp → Session → HostOut
  | .reset, h => hostReset h
  | .load bytes, h => hostLoad bytes h
  | .run, h => hostRun h

/-- A sequence of host operations; the first refusal ends it, so nothing follows a refused Load (70_reset_and_hazards.md
R163: "the host must not go on to Run after a refused Load"). -/
def hostOps : List HostOp → Session → HostOut
  | [], h => .next h
  | op :: ops, h =>
    match hostOp op h with
    | .next h' => hostOps ops h'
    | .fault f => .fault f
    | .refused r => .refused r

/-- One step of the engine inside the session: the host's place in its sequence does not move (70_reset_and_hazards.md
R165: the engine steps for as long as `running = 1`). -/
def sessionStep (h : Session) : HostOut :=
  match step h.engine with
  | .next s => .next ⟨s, h.phase⟩
  | .fault f => .fault f
  | .refused r => .refused r

/-- What the host has received: the output elements in order (70_reset_and_hazards.md R167). -/
def hostReceived (h : Session) : List Byte := h.engine.out

/-- What the host may read: the whole state, after the run (70_reset_and_hazards.md R167, R168; 10_state.md R24). While
the engine runs the host only receives output (R168), and before Run it has only Reset and Load (R168; "only after the
run", 40_execution_cycle.md R71): both reads are refused (log entry 11). -/
def hostObserve (h : Session) : Host.Outcome State Fault Refusal :=
  if h.engine.running then .refused .engineRunning
  else if h.phase = .started then .next h.engine
  else .refused .outOfSequence

/-- The text of one output element: decimal, no leading zeros (41_system.md R82). What separates two elements is the
host's business (D14, log entry 12). -/
def outputText (v : Byte) : String := toString v.toNat

end Sys2Proof.Machine
end

