-- ==== Sys2Proof/WellFormed.lean ====
section
/-! DEFINITION. When an instruction's operands are valid: every register-index operand byte is in 0..7
(10_state.md R10, 30_encoding.md R52). -/

namespace Sys2Proof

/-- A register-index operand byte is valid when it is in 0..7 (30_encoding.md R52). -/
def validIndex (a : Byte) : Bool := a.toNat ≤ 7

/-- Well-formed: every register-index operand is valid. Register-index operands are operand1 of every F1 and F2
instruction and operand2 of MUL, ADD, CMP, AND, OR, XOR (30_encoding.md R52); LDI's operand2 is an immediate and every
value of it is legal (R53). -/
def wellFormed : Instr → Bool
  | .hlt => true
  | .ldi a _ => validIndex a
  | .prn a => validIndex a
  | .mul a b => validIndex a && validIndex b
  | .add a b => validIndex a && validIndex b
  | .cmp a b => validIndex a && validIndex b
  | .and a b => validIndex a && validIndex b
  | .or a b => validIndex a && validIndex b
  | .xor a b => validIndex a && validIndex b
  | .not a => validIndex a
  | .push a => validIndex a
  | .pop a => validIndex a
  | .call a => validIndex a
  | .ret => true
  | .jmp a => validIndex a
  | .jeq a => validIndex a
  | .jne a => validIndex a

end Sys2Proof
end

