-- ==== Sys2Proof/Safety.lean ====
section
/-! DEFINITION. The vocabulary of the claims: the invariant of the machine, its two halted states, the table of checks of
40_execution_cycle.md R68, and which state an instruction may touch. -/

namespace Sys2Proof.Machine

/-! ### The end of a run: 60_exceptions.md R135, 70_reset_and_hazards.md R166 -/

/-- The clean halt: `running = 0`, `fault = None` after HLT (41_system.md R80). -/
abbrev State.cleanHalt (s : State) : Prop := s.running = false ∧ s.fault = none

/-- The error outcome, distinct from the clean halt (60_exceptions.md R135). -/
abbrev State.faulted (s : State) : Prop := s.running = false ∧ s.fault ≠ none

/-! ### The table of checks: 40_execution_cycle.md R68 -/

/-- Stage 4a looks at operand1, stage 4b at operand2 unless it is LDI's immediate: the register-index operands of an
instruction in that order (30_encoding.md R52). -/
def registerOperands : Instr → List Byte
  | .hlt => []
  | .ldi a _ => [a]
  | .prn a => [a]
  | .mul a b => [a, b]
  | .add a b => [a, b]
  | .cmp a b => [a, b]
  | .and a b => [a, b]
  | .or a b => [a, b]
  | .xor a b => [a, b]
  | .not a => [a]
  | .push a => [a]
  | .pop a => [a]
  | .call a => [a]
  | .ret => []
  | .jmp a => [a]
  | .jeq a => [a]
  | .jne a => [a]

/-- The conditions of stages 5a and 5b, and the fault they raise. -/
def stackFault (s : State) : Instr → Option Fault
  | .push _ => if s.sp.toNat = 0 then some .stackOverflow else none
  | .call _ => if s.sp.toNat = 0 then some .stackOverflow else none
  | .ret => if s.sp.toNat = 255 then some .stackUnderflow else none
  | .pop a =>
    if a.toNat = 7 then (if (s.memRead s.sp).toNat = 255 then some .stackUnderflow else none)
    else (if s.sp.toNat = 255 then some .stackUnderflow else none)
  | .hlt => none
  | .ldi _ _ => none
  | .prn _ => none
  | .mul _ _ => none
  | .add _ _ => none
  | .cmp _ _ => none
  | .and _ _ => none
  | .or _ _ => none
  | .xor _ _ => none
  | .not _ => none
  | .jmp _ => none
  | .jeq _ => none
  | .jne _ => none

/-- Whether the successor is `pc + len`: the table of 40_execution_cycle.md R70. -/
def fallsThrough (s : State) : Instr → Bool
  | .ldi _ _ => true
  | .mul _ _ => true
  | .add _ _ => true
  | .cmp _ _ => true
  | .and _ _ => true
  | .or _ _ => true
  | .xor _ _ => true
  | .prn _ => true
  | .not _ => true
  | .push _ => true
  | .pop _ => true
  | .jeq _ => !s.flags.e
  | .jne _ => s.flags.e
  | .jmp _ => false
  | .call _ => false
  | .ret => false
  | .hlt => false

/-- Whether stage 6 looks at `pc + len`: the instruction falls through or is CALL. -/
def needsSuccessor (s : State) : Instr → Bool
  | .call _ => true
  | i => fallsThrough s i

/-- The first failing check of stages 3 to 6, in the order of the table of 40_execution_cycle.md R68, with its
`fault_info`. -/
def firstFault (s : State) (i : Instr) : Option (Fault × Nat) :=
  if s.pc.toNat + instrLength i - 1 > 255 then some (.addressOutOfRange, 256)
  else match (registerOperands i).find? (fun a => decide (a.toNat > 7)) with
    | some a => some (.invalidRegisterIndex, a.toNat)
    | none =>
      match stackFault s i with
      | some f => some (f, 0)
      | none =>
        if needsSuccessor s i = true ∧ s.pc.toNat + instrLength i > 255 then some (.addressOutOfRange, 256) else none

/-! ### What an instruction may touch: 10_state.md R13, 20_memory.md R32 -/

/-- The operand byte `a` names register `r`. -/
def names (a : Byte) (r : RegIdx) : Bool := decide (a.toNat = r.val)

/-- The column "writes" of the table of 10_state.md R13. -/
def writesReg (r : RegIdx) : Instr → Bool
  | .ldi a _ => names a r
  | .add a _ => names a r
  | .mul a _ => names a r
  | .and a _ => names a r
  | .or a _ => names a r
  | .xor a _ => names a r
  | .not a => names a r
  | .push _ => decide (r = Config.spIndex)
  | .pop a => names a r || decide (r = Config.spIndex)
  | .call _ => decide (r = Config.spIndex)
  | .ret => decide (r = Config.spIndex)
  | .prn _ => false
  | .cmp _ _ => false
  | .jmp _ => false
  | .jeq _ => false
  | .jne _ => false
  | .hlt => false

/-- The column "reads" of the table of 10_state.md R13. -/
def readsReg (r : RegIdx) : Instr → Bool
  | .ldi _ _ => false
  | .prn a => names a r
  | .add a b => names a r || names b r
  | .mul a b => names a r || names b r
  | .and a b => names a r || names b r
  | .or a b => names a r || names b r
  | .xor a b => names a r || names b r
  | .not a => names a r
  | .cmp a b => names a r || names b r
  | .push a => names a r || decide (r = Config.spIndex)
  | .pop _ => decide (r = Config.spIndex)
  | .call a => names a r || decide (r = Config.spIndex)
  | .ret => decide (r = Config.spIndex)
  | .jmp a => names a r
  | .jeq a => names a r
  | .jne a => names a r
  | .hlt => false

/-- The address an instruction stores one byte to: PUSH and CALL store at the decremented stack pointer, nothing else
stores (20_memory.md R32). -/
def storeAddr (s : State) : Instr → Option Addr
  | .push _ => some s.pushAddr
  | .call _ => some s.pushAddr
  | .hlt => none
  | .ldi _ _ => none
  | .prn _ => none
  | .mul _ _ => none
  | .add _ _ => none
  | .cmp _ _ => none
  | .and _ _ => none
  | .or _ _ => none
  | .xor _ _ => none
  | .not _ => none
  | .pop _ => none
  | .ret => none
  | .jmp _ => none
  | .jeq _ => none
  | .jne _ => none

/-- Two states no program can tell apart: they differ at most in L, G, the fault record and the output stream, which no
instruction reads (10_state.md R17, R20, R22). -/
structure SameToPrograms (s t : State) : Prop where
  regs : s.regs = t.regs
  pc : s.pc = t.pc
  e : s.flags.e = t.flags.e
  running : s.running = t.running
  mem : s.mem = t.mem

/-! ### The invariant -/

/-- At most one of E, L and G is set: CMP sets exactly one, and reset leaves none (10_state.md R17, 43_alu.md R94). -/
def Flags.atMostOne (f : Flags) : Bool := !(f.e && f.l) && !(f.e && f.g) && !(f.l && f.g)

/-- A fault record tells the truth about the state the engine stopped in: it names the address of the faulting
instruction, which `pc` still holds, and its cause and info fit that instruction's bytes and the stack pointer
(60_exceptions.md R131, R133). -/
def recordTrue (s : State) (r : FaultRecord) : Prop :=
  r.faultPc = s.pc ∧
  match r.cause with
  | .invalidInstruction => r.faultInfo = (s.memRead s.pc).toNat ∧ opcodeForm (s.memRead s.pc) = none
  | .addressOutOfRange => r.faultInfo = 256 ∧ 253 ≤ s.pc.toNat
  | .invalidRegisterIndex =>
    8 ≤ r.faultInfo ∧
      ((s.pc.toNat ≤ 254 ∧ r.faultInfo = (s.memRead (s.pc + 1)).toNat) ∨
       (s.pc.toNat ≤ 253 ∧ r.faultInfo = (s.memRead (s.pc + 2)).toNat))
  | .stackOverflow => r.faultInfo = 0 ∧ s.sp = 0x00#8
  | .stackUnderflow => r.faultInfo = 0 ∧ (s.sp = 0xFF#8 ∨ s.memRead s.sp = 0xFF#8)
  | .unsupportedOperation => False

/-- The invariant every step keeps: the memory is canonical, at most one flag is set, and a recorded fault means a stopped
engine and is true of it. -/
structure Inv (s : State) : Prop where
  mem : Memory.wf s.mem = true
  flags : s.flags.atMostOne = true
  fault : ∀ r, s.fault = some r → s.running = false ∧ recordTrue s r

end Sys2Proof.Machine
end

