-- ==== Sys2Proof/Certificates/Slice0/Obligations.lean ====
section
/-! DEFINITION. The statements for the provers, from the numbered rules of spec/. Numbers in them are natural numbers: an
8-bit register or the program counter is `BitVec.ofNat 8` of the number the rule computes. -/

namespace Sys2Proof.Claims
open Sys2Proof Sys2Proof.Machine

/-- `s` with `v mod 256` in register `r` and `p` as the program counter: everything else of the state as in `s`. -/
def wrote (s : State) (r : RegIdx) (v p : Nat) : State :=
  { s with regs := s.regs.set r (BitVec.ofNat 8 v), pc := BitVec.ofNat 8 p }

/-- `s` with `p` as the program counter, everything else as in `s`. -/
def movedTo (s : State) (p : Nat) : State := { s with pc := BitVec.ofNat 8 p }

/-- The flags, the output, the running flag and the fault record are the same in both states. -/
def SameControl (s t : State) : Prop :=
  t.flags = s.flags ∧ t.out = s.out ∧ t.running = s.running ∧ t.fault = s.fault

/-- The faults of a three-byte instruction that falls through and has register operands `a` and `b`, in order
(43_alu.md §2, "Common to the six two-operand instructions"). -/
def TwoOperandFaults (mk : Byte → Byte → Instr) : Prop :=
  ∀ (s : State) (a b : Byte),
    (254 ≤ s.pc.toNat → exec (mk a b) s = .next (s.raise .addressOutOfRange 256)) ∧
    (s.pc.toNat ≤ 253 → 8 ≤ a.toNat → exec (mk a b) s = .next (s.raise .invalidRegisterIndex a.toNat)) ∧
    (s.pc.toNat ≤ 253 → a.toNat ≤ 7 → 8 ≤ b.toNat → exec (mk a b) s = .next (s.raise .invalidRegisterIndex b.toNat)) ∧
    (s.pc.toNat = 253 → a.toNat ≤ 7 → b.toNat ≤ 7 → exec (mk a b) s = .next (s.raise .addressOutOfRange 256))

/-- The faults of a two-byte instruction that falls through and has one register operand, in order (41_system.md R81,
43_alu.md R98). -/
def OneOperandFaults (mk : Byte → Instr) : Prop :=
  ∀ (s : State) (a : Byte),
    (s.pc.toNat = 255 → exec (mk a) s = .next (s.raise .addressOutOfRange 256)) ∧
    (s.pc.toNat ≤ 254 → 8 ≤ a.toNat → exec (mk a) s = .next (s.raise .invalidRegisterIndex a.toNat)) ∧
    (s.pc.toNat = 254 → a.toNat ≤ 7 → exec (mk a) s = .next (s.raise .addressOutOfRange 256))

/-- The faults of PUSH and CALL, in order (44_stack.md R108, 45_control.md R116). -/
def PushingFaults (mk : Byte → Instr) : Prop :=
  ∀ (s : State) (a : Byte),
    (s.pc.toNat = 255 → exec (mk a) s = .next (s.raise .addressOutOfRange 256)) ∧
    (s.pc.toNat ≤ 254 → 8 ≤ a.toNat → exec (mk a) s = .next (s.raise .invalidRegisterIndex a.toNat)) ∧
    (s.pc.toNat ≤ 254 → a.toNat ≤ 7 → s.sp.toNat = 0 → exec (mk a) s = .next (s.raise .stackOverflow 0)) ∧
    (s.pc.toNat = 254 → a.toNat ≤ 7 → s.sp.toNat ≠ 0 → exec (mk a) s = .next (s.raise .addressOutOfRange 256))

/-- The whole rule of a two-operand ALU instruction that writes `x[a]`: its encoding, its result with everything else
unchanged, and its faults. -/
def AluRule (mk : Byte → Byte → Instr) (opcode : Byte) (result : Nat → Nat → Nat) : Prop :=
  (∀ a b, encode (mk a b) = [opcode, a, b]) ∧
  (∀ (s : State) (a b : Byte) (ha : a.toNat < 8) (hb : b.toNat < 8), s.pc.toNat ≤ 252 →
    exec (mk a b) s = .next (wrote s ⟨a.toNat, ha⟩
      (result (s.reg ⟨a.toNat, ha⟩).toNat (s.reg ⟨b.toNat, hb⟩).toNat) (s.pc.toNat + 3))) ∧
  TwoOperandFaults mk

/-- The whole rule of a conditional jump whose condition on E is `taken`: its encoding, where it goes with everything
else unchanged, and its faults (45_control.md R119, R120). -/
def JumpRule (mk : Byte → Instr) (opcode : Byte) (taken : Bool → Bool) : Prop :=
  (∀ a, encode (mk a) = [opcode, a]) ∧
  (∀ (s : State) (a : Byte) (ha : a.toNat < 8), s.pc.toNat ≤ 254 → taken s.flags.e = true →
    exec (mk a) s = .next (movedTo s (s.reg ⟨a.toNat, ha⟩).toNat)) ∧
  (∀ (s : State) (a : Byte), a.toNat ≤ 7 → s.pc.toNat ≤ 253 → taken s.flags.e = false →
    exec (mk a) s = .next (movedTo s (s.pc.toNat + 2))) ∧
  (∀ (s : State) (a : Byte),
    (s.pc.toNat = 255 → exec (mk a) s = .next (s.raise .addressOutOfRange 256)) ∧
    (s.pc.toNat ≤ 254 → 8 ≤ a.toNat → exec (mk a) s = .next (s.raise .invalidRegisterIndex a.toNat)) ∧
    (s.pc.toNat = 254 → a.toNat ≤ 7 → taken s.flags.e = false →
      exec (mk a) s = .next (s.raise .addressOutOfRange 256)))

/-- The 17 opcode values of 30_encoding.md R54, in its order. -/
def opcodes : List Byte :=
  [0b00000001#8, 0b10000010#8, 0b01000111#8, 0b10100010#8, 0b10100000#8, 0b10100111#8, 0b10101000#8, 0b10101010#8,
    0b10101011#8, 0b01101001#8, 0b01000101#8, 0b01000110#8, 0b01010000#8, 0b00010001#8, 0b01010100#8, 0b01010101#8,
    0b01010110#8]

/-- The ALU instructions (43_alu.md R90). -/
def usesAlu : Instr → Bool
  | .mul _ _ | .add _ _ | .cmp _ _ | .and _ _ | .or _ _ | .xor _ _ | .not _ => true
  | .hlt | .ldi _ _ | .prn _ | .push _ | .pop _ | .call _ | .ret | .jmp _ | .jeq _ | .jne _ => false

/-- The instructions that write the program counter directly (45_control.md). -/
def setsPc : Instr → Bool
  | .call _ | .ret | .jmp _ | .jeq _ | .jne _ => true
  | .hlt | .ldi _ _ | .prn _ | .mul _ _ | .add _ _ | .cmp _ _ | .and _ _ | .or _ _ | .xor _ _ | .not _ | .push _
  | .pop _ => false

/-- Where an instruction that does not fall through goes (10_state.md R15; 40_execution_cycle.md R70). -/
def goesTo (s : State) (p : Addr) : Instr → Prop
  | .hlt => p = s.pc
  | .ret => p = s.memRead s.sp
  | .jmp a | .jeq a | .jne a => ∀ r, names a r = true → p = s.reg r
  | .call a => ∀ r, names a r = true → p = if r = 7 then s.pushAddr else s.reg r
  | .ldi _ _ | .prn _ | .mul _ _ | .add _ _ | .cmp _ _ | .and _ _ | .or _ _ | .xor _ _ | .not _ | .push _ | .pop _ => False

end Sys2Proof.Claims

open Sys2Proof Sys2Proof.Machine Sys2Proof.Claims

/-! ### Encoding -/

/-- Decode and encode agree in both directions: bytes decode to `i` exactly when they begin with `i`'s encoding, so no bit
of an encoding is dropped and no other bytes are taken for `i` (30_encoding.md R50, R54, R55). -/
def Obligations.DecodeInvertsEncodeExactly : Prop :=
  ∀ (bs : List Byte) (i : Instr) (rest : List Byte), decode bs = .ok (i, rest) ↔ bs = encode i ++ rest

/-- 30_encoding.md R54, R55: each of the 17 opcode bytes gives its mnemonic with its operand bytes, every other byte is
invalid whatever follows, and the 17 values differ pairwise. -/
def Obligations.OpcodeByteSelectsOneOfSeventeen : Prop :=
  (∀ rest, decode (0b00000001#8 :: rest) = .ok (.hlt, rest)) ∧
  (∀ a imm8 rest, decode (0b10000010#8 :: a :: imm8 :: rest) = .ok (.ldi a imm8, rest)) ∧
  (∀ a rest, decode (0b01000111#8 :: a :: rest) = .ok (.prn a, rest)) ∧
  (∀ a b rest, decode (0b10100010#8 :: a :: b :: rest) = .ok (.mul a b, rest)) ∧
  (∀ a b rest, decode (0b10100000#8 :: a :: b :: rest) = .ok (.add a b, rest)) ∧
  (∀ a b rest, decode (0b10100111#8 :: a :: b :: rest) = .ok (.cmp a b, rest)) ∧
  (∀ a b rest, decode (0b10101000#8 :: a :: b :: rest) = .ok (.and a b, rest)) ∧
  (∀ a b rest, decode (0b10101010#8 :: a :: b :: rest) = .ok (.or a b, rest)) ∧
  (∀ a b rest, decode (0b10101011#8 :: a :: b :: rest) = .ok (.xor a b, rest)) ∧
  (∀ a rest, decode (0b01101001#8 :: a :: rest) = .ok (.not a, rest)) ∧
  (∀ a rest, decode (0b01000101#8 :: a :: rest) = .ok (.push a, rest)) ∧
  (∀ a rest, decode (0b01000110#8 :: a :: rest) = .ok (.pop a, rest)) ∧
  (∀ a rest, decode (0b01010000#8 :: a :: rest) = .ok (.call a, rest)) ∧
  (∀ rest, decode (0b00010001#8 :: rest) = .ok (.ret, rest)) ∧
  (∀ a rest, decode (0b01010100#8 :: a :: rest) = .ok (.jmp a, rest)) ∧
  (∀ a rest, decode (0b01010101#8 :: a :: rest) = .ok (.jeq a, rest)) ∧
  (∀ a rest, decode (0b01010110#8 :: a :: rest) = .ok (.jne a, rest)) ∧
  (∀ op rest, op ∉ opcodes → decode (op :: rest) = .error (.invalidOpcode op)) ∧
  opcodes.Nodup

/-- The words of the source's worked program decode to its five instructions (95_test_vectors.md S6; 20_memory.md R35). -/
def Obligations.WorkedProgramWordsDecode : Prop :=
  decode [0x82#8, 0x00#8, 0x08#8] = .ok (.ldi 0#8 8#8, []) ∧
  decode [0x82#8, 0x01#8, 0x09#8] = .ok (.ldi 1#8 9#8, []) ∧
  decode [0xA0#8, 0x00#8, 0x01#8] = .ok (.add 0#8 1#8, []) ∧
  decode [0x47#8, 0x00#8] = .ok (.prn 0#8, []) ∧
  decode [0x01#8] = .ok (.hlt, [])

/-- The three regularities of the opcode values (30_encoding.md R58, which the spec marks as derived): bits 7:6 count the
operand bytes, bit 5 marks the ALU's instructions, bit 4 those that write the program counter directly. -/
def Obligations.OpcodeBitsTellLengthAluAndControl : Prop :=
  ∀ i : Instr, (operandBytes i).length = (opcodeByte i).toNat / 64 ∧ (opcodeByte i).getLsbD 5 = usesAlu i ∧
    (opcodeByte i).getLsbD 4 = setsPc i

/-! ### The step -/

/-- A running engine whose bytes at the program counter decode to `i` takes exactly the step of `i`; nothing is added
around it (40_execution_cycle.md R66, R70). The bytes read are `i`'s own and no more (R67). -/
def Obligations.StepExecutesTheDecodedInstruction : Prop :=
  ∀ (s : State) (i : Instr) (rest : List Byte), s.running = true → decode s.fetchBytes = .ok (i, rest) →
    step s = exec i s ∧ rest = [] ∧ s.fetchBytes = encode i

/-- 40_execution_cycle.md R65: with `running = 1` the engine takes a step, of the decoded instruction or of the decoding
fault; with `running = 0` it does nothing, now and for ever. -/
def Obligations.EngineStepsExactlyWhileRunning : Prop :=
  (∀ s : State, s.running = true →
    (∃ i, decode s.fetchBytes = .ok (i, []) ∧ step s = exec i s) ∨
    (∃ e, decode s.fetchBytes = .error e ∧ step s = .next (s.raiseDecode e))) ∧
  (∀ s : State, s.running = false → step s = .next s ∧ ∀ k, Sys2Proof.core.run k s = .next s)

/-- 30_encoding.md R56: an opcode byte that is not one of the 17 raises InvalidInstruction with that byte, whatever the
bytes after it, and nothing else changes; there are 239 such values, 0x00 among them. -/
def Obligations.InvalidOpcodeFaultsAtOnce : Prop :=
  (∀ s : State, s.running = true → s.memRead s.pc ∉ opcodes →
    step s = .next { s with running := false, fault := some ⟨.invalidInstruction, s.pc, (s.memRead s.pc).toNat⟩ }) ∧
  ((List.range 256).filter fun n => decide (BitVec.ofNat 8 n ∉ opcodes)).length = 239 ∧ 0x00#8 ∉ opcodes

/-- An instruction with operand bytes beyond address 255 raises AddressOutOfRange with 256 before any operand is read
(40_execution_cycle.md R68 stage 3; the fault is the spec's decision D3, its order D9). -/
def Obligations.MissingOperandBytesFault : Prop :=
  ∀ s : State, s.running = true → ∀ f, opcodeForm (s.memRead s.pc) = some f → s.pc.toNat + f.nops > 255 →
    step s = .next (s.raise .addressOutOfRange 256)

/-- A step that records a fault changes `running` and the fault record and nothing else, and the record holds the address
of the faulting instruction (60_exceptions.md R133, 40_execution_cycle.md R69: the spec's decision D10). -/
def Obligations.FaultChangesOnlyRunningAndRecord : Prop :=
  ∀ s t : State, step s = .next t → t.fault ≠ s.fault →
    s.running = true ∧ ∃ f n, t = { s with running := false, fault := some ⟨f, s.pc, n⟩ }

/-- The first failing check of the table of 40_execution_cycle.md R68 is the fault raised, for every instruction, operand
and state; with no failing check the instruction completes and records none (the order is the spec's decision D9; the
faults are its D3, D4, D5). -/
def Obligations.ChecksFailInTheOrderOfTheTable : Prop :=
  ∀ (i : Instr) (s : State),
    (∀ f n, firstFault s i = some (f, n) → exec i s = .next (s.raise f n)) ∧
    (firstFault s i = none → ∃ t, exec i s = .next t ∧ t.fault = s.fault ∧ (i ≠ .hlt → t.running = s.running))

/-- Every step of every state answers a next state: no instruction is refused and none ends the model
(40_execution_cycle.md R66; 60_exceptions.md R133: a fault is a state the engine stops in). -/
def Obligations.EveryStepAnswersANextState : Prop :=
  (∀ s : State, ∃ t, step s = .next t) ∧ ∀ (i : Instr) (s : State), ∃ t, exec i s = .next t

/-! ### System instructions and LDI -/

/-- HLT clears `running`, at every address, and changes nothing else; that the program counter stays is the spec's
decision D7 (41_system.md R80). -/
def Obligations.HltStopsCleanlyInPlace : Prop :=
  encode .hlt = [0b00000001#8] ∧ ∀ s : State, exec .hlt s = .next { s with running := false }

/-- 41_system.md R81: PRN appends `x[a]` to the output and goes on at `pc + 2`; its faults in order. (The faults and
their order are the spec's decisions D3, D4 and D9, log entry 9; 40_execution_cycle.md R68.) -/
def Obligations.PrnAppendsItsRegisterToTheOutput : Prop :=
  (∀ a, encode (.prn a) = [0b01000111#8, a]) ∧
  (∀ (s : State) (a : Byte) (ha : a.toNat < 8), s.pc.toNat ≤ 253 →
    exec (.prn a) s = .next (movedTo { s with out := s.out ++ [s.reg ⟨a.toNat, ha⟩] } (s.pc.toNat + 2))) ∧
  OneOperandFaults .prn

/-- 42_ldi.md R85: LDI writes the immediate byte as it stands to `x[a]`, `x[7]` included, and goes on at `pc + 3`; its
faults, in which operand2 is never checked (the faults and their order: the spec's decisions D3, D4
and D9, log entry 9; 40_execution_cycle.md R68). -/
def Obligations.LdiLoadsTheImmediateByte : Prop :=
  (∀ a imm8, encode (.ldi a imm8) = [0b10000010#8, a, imm8]) ∧
  (∀ (s : State) (a imm8 : Byte) (ha : a.toNat < 8), s.pc.toNat ≤ 252 →
    exec (.ldi a imm8) s = .next (wrote s ⟨a.toNat, ha⟩ imm8.toNat (s.pc.toNat + 3))) ∧
  (∀ (s : State) (a imm8 : Byte),
    (254 ≤ s.pc.toNat → exec (.ldi a imm8) s = .next (s.raise .addressOutOfRange 256)) ∧
    (s.pc.toNat ≤ 253 → 8 ≤ a.toNat → exec (.ldi a imm8) s = .next (s.raise .invalidRegisterIndex a.toNat)) ∧
    (s.pc.toNat = 253 → a.toNat ≤ 7 → exec (.ldi a imm8) s = .next (s.raise .addressOutOfRange 256)))

/-! ### The ALU -/

/-- 43_alu.md R92: MUL keeps the low 8 bits of the exact product; its faults in order (the spec's decisions D3,
D4 and D9, log entry 9; 40_execution_cycle.md R68). -/
def Obligations.MulKeepsTheLowByteOfTheProduct : Prop := AluRule .mul 0b10100010#8 fun u v => u * v % 256

/-- 43_alu.md R93: ADD wraps modulo 256 and leaves no carry anywhere; its faults in order (the spec's decisions D3, D4 and
D9, log entry 9; 40_execution_cycle.md R68). -/
def Obligations.AddWrapsModulo256 : Prop := AluRule .add 0b10100000#8 fun u v => (u + v) % 256

/-- 43_alu.md R94: CMP writes E, L and G, all three, from the unsigned comparison, and no register; its faults,
in order, leave the flags as they were (the spec's decisions D3, D4, D9 and D10, log entry 9; 40_execution_cycle.md
R68). -/
def Obligations.CmpSetsTheThreeFlagsUnsigned : Prop :=
  (∀ a b, encode (.cmp a b) = [0b10100111#8, a, b]) ∧
  (∀ (s : State) (a b : Byte) (ha : a.toNat < 8) (hb : b.toNat < 8), s.pc.toNat ≤ 252 →
    let u := (s.reg ⟨a.toNat, ha⟩).toNat
    let v := (s.reg ⟨b.toNat, hb⟩).toNat
    (u = v → exec (.cmp a b) s = .next (movedTo { s with flags := ⟨true, false, false⟩ } (s.pc.toNat + 3))) ∧
    (u < v → exec (.cmp a b) s = .next (movedTo { s with flags := ⟨false, true, false⟩ } (s.pc.toNat + 3))) ∧
    (u > v → exec (.cmp a b) s = .next (movedTo { s with flags := ⟨false, false, true⟩ } (s.pc.toNat + 3)))) ∧
  TwoOperandFaults .cmp

/-- 43_alu.md R95, R96, R97: AND, OR and XOR act on each bit of `x[a]` and `x[b]`; their faults in order
(the spec's decisions D3, D4 and D9, log entry 9; 40_execution_cycle.md R68). -/
def Obligations.AndOrXorActBitwise : Prop :=
  AluRule .and 0b10101000#8 (fun u v => u &&& v) ∧ AluRule .or 0b10101010#8 (fun u v => u ||| v) ∧
  AluRule .xor 0b10101011#8 (fun u v => u ^^^ v)

/-- 43_alu.md R98: NOT writes 255 minus `x[a]`, two bytes long; its faults in order (the spec's decisions D3, D4 and D9,
log entry 9; 40_execution_cycle.md R68). -/
def Obligations.NotComplementsEightBits : Prop :=
  (∀ a, encode (.not a) = [0b01101001#8, a]) ∧
  (∀ (s : State) (a : Byte) (ha : a.toNat < 8), s.pc.toNat ≤ 253 →
    exec (.not a) s = .next (wrote s ⟨a.toNat, ha⟩ (255 - (s.reg ⟨a.toNat, ha⟩).toNat) (s.pc.toNat + 2))) ∧
  OneOperandFaults .not

/-- 43_alu.md R99: only CMP writes flags. Every other instruction leaves E, L and G as they were, whether it completes or
faults; a step that changes a flag ran a CMP; and the carry of ADD and the high byte of MUL leave no trace: no memory
cell, output element or register but `x[a]` changes. -/
def Obligations.OnlyCmpWritesFlags : Prop :=
  (∀ (i : Instr) (s t : State), (∀ a b, i ≠ .cmp a b) → exec i s = .next t → t.flags = s.flags) ∧
  (∀ s t : State, step s = .next t → t.flags ≠ s.flags → ∃ a b, decode s.fetchBytes = .ok (.cmp a b, [])) ∧
  (∀ (s t : State) (a b : Byte), exec (.add a b) s = .next t ∨ exec (.mul a b) s = .next t →
    t.mem = s.mem ∧ t.out = s.out ∧ t.flags = s.flags ∧ ∀ r, names a r = false → t.reg r = s.reg r)

/-! ### The stack -/

/-- PUSH (44_stack.md R108, R106): the cell at the decremented stack pointer gets `x[a]`; for `a = 7` it gets the
decremented stack pointer itself, by the statement order (marked derived in R108). Its faults in order, the stack bound
being the spec's decision D5. -/
def Obligations.PushStoresBelowTheStackPointer : Prop :=
  (∀ a, encode (.push a) = [0b01000101#8, a]) ∧
  (∀ (s : State) (a : Byte) (ha : a.toNat < 8), s.pc.toNat ≤ 253 → s.sp.toNat ≠ 0 →
    ∃ t, exec (.push a) s = .next t ∧ t.pc.toNat = s.pc.toNat + 2 ∧
      s.pushAddr.toNat = s.sp.toNat - 1 ∧ t.sp = s.pushAddr ∧ (∀ r, r ≠ 7 → t.reg r = s.reg r) ∧
      t.memRead s.pushAddr = (if a.toNat = 7 then s.pushAddr else s.reg ⟨a.toNat, ha⟩) ∧
      (∀ k, k ≠ s.pushAddr → t.memRead k = s.memRead k) ∧ SameControl s t) ∧
  PushingFaults .push

/-- POP (44_stack.md R109, R107): `x[a]` gets the cell at the stack pointer and the stack pointer goes up by 1; for
`a = 7` the stack pointer becomes the popped value plus 1 (marked derived in R109). Memory is unchanged. Its faults in
order, the stack bound being the spec's decision D5. -/
def Obligations.PopLoadsAndMovesTheStackPointer : Prop :=
  (∀ a, encode (.pop a) = [0b01000110#8, a]) ∧
  (∀ (s : State) (a : Byte) (ha : a.toNat < 8), s.pc.toNat ≤ 253 → a.toNat ≠ 7 → s.sp.toNat ≠ 255 →
    exec (.pop a) s = .next (wrote { s with regs := s.regs.set a.toNat (s.memRead s.sp) } 7 (s.sp.toNat + 1)
      (s.pc.toNat + 2))) ∧
  (∀ (s : State) (a : Byte), s.pc.toNat ≤ 253 → a.toNat = 7 → (s.memRead s.sp).toNat ≠ 255 →
    exec (.pop a) s = .next (wrote s 7 ((s.memRead s.sp).toNat + 1) (s.pc.toNat + 2))) ∧
  (∀ (s : State) (a : Byte),
    (s.pc.toNat = 255 → exec (.pop a) s = .next (s.raise .addressOutOfRange 256)) ∧
    (s.pc.toNat ≤ 254 → 8 ≤ a.toNat → exec (.pop a) s = .next (s.raise .invalidRegisterIndex a.toNat)) ∧
    (s.pc.toNat ≤ 254 → a.toNat < 7 → s.sp.toNat = 255 → exec (.pop a) s = .next (s.raise .stackUnderflow 0)) ∧
    (s.pc.toNat ≤ 254 → a.toNat = 7 → (s.memRead s.sp).toNat = 255 →
      exec (.pop a) s = .next (s.raise .stackUnderflow 0)) ∧
    (s.pc.toNat = 254 → a.toNat < 7 → s.sp.toNat ≠ 255 → exec (.pop a) s = .next (s.raise .addressOutOfRange 256)) ∧
    (s.pc.toNat = 254 → a.toNat = 7 → (s.memRead s.sp).toNat ≠ 255 →
      exec (.pop a) s = .next (s.raise .addressOutOfRange 256)))

/-- The round-trip law (44_stack.md R111, marked derived): PUSH ra then POP rc gives `x[c]` the pushed value, brings the
stack pointer back, and leaves one cell changed. -/
def Obligations.PushThenPopRoundTrips : Prop :=
  ∀ (s : State) (a c : Byte) (ha : a.toNat < 7) (hc : c.toNat < 7), s.sp.toNat ≠ 0 → s.pc.toNat ≤ 251 →
    ∃ t u, exec (.push a) s = .next t ∧ exec (.pop c) t = .next u ∧
      u.reg ⟨c.toNat, by omega⟩ = s.reg ⟨a.toNat, by omega⟩ ∧ u.sp = s.sp ∧
      (∀ r, names c r = false → u.reg r = s.reg r) ∧
      u.memRead s.pushAddr = s.reg ⟨a.toNat, by omega⟩ ∧ (∀ k, k ≠ s.pushAddr → u.memRead k = s.memRead k) ∧
      u.pc.toNat = s.pc.toNat + 4 ∧ SameControl s u

/-- A pushed byte is what a later fetch of that address reads (20_memory.md R43, marked derived): when a PUSH stores at
the very next instruction address, the next fetch begins with the stored byte. -/
def Obligations.PushedByteIsFetchedNext : Prop :=
  ∀ (s : State) (a : Byte) (ha : a.toNat < 7), s.pc.toNat ≤ 253 → s.sp.toNat = s.pc.toNat + 3 →
    ∃ t, exec (.push a) s = .next t ∧ t.fetchBytes.head? = some (s.reg ⟨a.toNat, by omega⟩)

/-! ### Control transfer -/

/-- CALL (45_control.md R116): push `pc + 2`, then go to `x[a]`; for `a = 7` the target is the decremented stack pointer
(marked derived in R116). Its faults in order, the stack bound being the spec's decision D5. -/
def Obligations.CallPushesTheReturnAddressAndJumps : Prop :=
  (∀ a, encode (.call a) = [0b01010000#8, a]) ∧
  (∀ (s : State) (a : Byte) (ha : a.toNat < 8), s.pc.toNat ≤ 253 → s.sp.toNat ≠ 0 →
    ∃ t, exec (.call a) s = .next t ∧
      t.pc = (if a.toNat = 7 then s.pushAddr else s.reg ⟨a.toNat, ha⟩) ∧
      s.pushAddr.toNat = s.sp.toNat - 1 ∧ t.sp = s.pushAddr ∧ (∀ r, r ≠ 7 → t.reg r = s.reg r) ∧
      (t.memRead s.pushAddr).toNat = s.pc.toNat + 2 ∧
      (∀ k, k ≠ s.pushAddr → t.memRead k = s.memRead k) ∧ SameControl s t) ∧
  PushingFaults .call

/-- 45_control.md R117: RET goes to the byte at the stack pointer, whatever it is, and the stack pointer goes up by 1, at
every address; its one fault. -/
def Obligations.RetJumpsToThePoppedByte : Prop :=
  encode .ret = [0b00010001#8] ∧
  (∀ s : State, s.sp.toNat ≠ 255 → exec .ret s = .next (wrote s 7 (s.sp.toNat + 1) (s.memRead s.sp).toNat)) ∧
  (∀ s : State, s.sp.toNat = 255 → exec .ret s = .next (s.raise .stackUnderflow 0))

/-- CALL then RET returns to the instruction after the CALL, the stack pointer restored, if the subroutine left the stack
pointer and the saved byte as they were (45_control.md R117, law; its assumption is marked derived). -/
def Obligations.CallThenRetReturnsAfterTheCall : Prop :=
  ∀ (s : State) (a : Byte), a.toNat ≤ 7 → s.pc.toNat ≤ 253 → s.sp.toNat ≠ 0 →
    ∃ t, exec (.call a) s = .next t ∧
      ∀ u : State, u.sp = t.sp → u.memRead u.sp = t.memRead t.sp →
        ∃ v, exec .ret u = .next v ∧ v.pc.toNat = s.pc.toNat + 2 ∧ v.sp = s.sp

/-- 45_control.md R118: JMP goes to `x[a]` from every address up to 254; its faults in order (the spec's
decisions D3, D4 and D9, log entry 9; 40_execution_cycle.md R68). -/
def Obligations.JmpGoesToItsRegister : Prop :=
  (∀ a, encode (.jmp a) = [0b01010100#8, a]) ∧
  (∀ (s : State) (a : Byte) (ha : a.toNat < 8), s.pc.toNat ≤ 254 →
    exec (.jmp a) s = .next (movedTo s (s.reg ⟨a.toNat, ha⟩).toNat)) ∧
  (∀ (s : State) (a : Byte),
    (s.pc.toNat = 255 → exec (.jmp a) s = .next (s.raise .addressOutOfRange 256)) ∧
    (s.pc.toNat ≤ 254 → 8 ≤ a.toNat → exec (.jmp a) s = .next (s.raise .invalidRegisterIndex a.toNat)))

/-- 45_control.md R119: JEQ goes to `x[a]` when E = 1 and to `pc + 2` when E = 0; its faults, the index checked whether or
not the jump is taken (the faults and their order: the spec's decisions D3, D4 and D9, log entry 9;
40_execution_cycle.md R68). -/
def Obligations.JeqJumpsExactlyWhenEqual : Prop := JumpRule .jeq 0b01010101#8 fun e => e

/-- 45_control.md R120: JNE goes to `x[a]` when E = 0 and to `pc + 2` when E = 1; its faults likewise (the spec's
decisions D3, D4 and D9, log entry 9; 40_execution_cycle.md R68). -/
def Obligations.JneJumpsExactlyWhenNotEqual : Prop := JumpRule .jne 0b01010110#8 fun e => !e

/-- CMP then a conditional jump (the source's law, 95_test_vectors.md S5; 45_control.md R119, R120): after CMP ra, rb, JEQ
goes to its register when the two are equal and to the next instruction otherwise, and JNE the other way round. -/
def Obligations.CmpThenJumpFollowsEquality : Prop :=
  ∀ (s : State) (a b c : Byte) (ha : a.toNat < 8) (hb : b.toNat < 8) (hc : c.toNat < 8), s.pc.toNat ≤ 250 →
    ∃ t, exec (.cmp a b) s = .next t ∧
      (s.reg ⟨a.toNat, ha⟩ = s.reg ⟨b.toNat, hb⟩ →
        exec (.jeq c) t = .next (movedTo t (s.reg ⟨c.toNat, hc⟩).toNat) ∧
        exec (.jne c) t = .next (movedTo t (s.pc.toNat + 5))) ∧
      (s.reg ⟨a.toNat, ha⟩ ≠ s.reg ⟨b.toNat, hb⟩ →
        exec (.jeq c) t = .next (movedTo t (s.pc.toNat + 5)) ∧
        exec (.jne c) t = .next (movedTo t (s.reg ⟨c.toNat, hc⟩).toNat))

/-- 40_execution_cycle.md R70: every instruction writes the program counter itself. One that falls through goes to
`pc + len`, at most 255 and never wrapped; the others go where their row says (10_state.md R15; 45_control.md R116 to R120;
CALL r7 to the decremented stack pointer, DEDUCED, log entry 13); HLT leaves it (decision D7, log entry 3); a fault
leaves it (R69, decision D10, log entry 9). -/
def Obligations.ProgramCounterFollowsTheTable : Prop :=
  ∀ (i : Instr) (s t : State), exec i s = .next t →
    (firstFault s i = none → fallsThrough s i = true → t.pc.toNat = s.pc.toNat + instrLength i) ∧
    (firstFault s i = none → fallsThrough s i = false → goesTo s t.pc i) ∧
    (∀ f n, firstFault s i = some (f, n) → t.pc = s.pc)

/-! ### Frames and information flow -/

/-- The column "writes" of 10_state.md R13: a register an instruction does not write is unchanged, whether the instruction
completes or faults. -/
def Obligations.InstructionsWriteOnlyTheirRegisters : Prop :=
  ∀ (i : Instr) (s t : State) (r : RegIdx), exec i s = .next t → writesReg r i = false → t.reg r = s.reg r

/-- The column "reads" of 10_state.md R13: a register an instruction does not read can hold any value `v` without any
other effect on the step; the value is carried along, or overwritten by the instruction. -/
def Obligations.InstructionsReadOnlyTheirRegisters : Prop :=
  ∀ (i : Instr) (s t : State) (r : RegIdx) (v : Byte), exec i s = .next t → readsReg r i = false →
    exec i (s.setReg r v) = .next (t.setReg r v) ∨
    (writesReg r i = true ∧ exec i (s.setReg r v) = .next t)

/-- Memory is written by PUSH and CALL only, one cell, at the decremented stack pointer (20_memory.md R32; 44_stack.md
R112, marked derived): every other cell reads as before, after every instruction and after every step. -/
def Obligations.OnlyPushAndCallWriteMemory : Prop :=
  (∀ (i : Instr) (s t : State) (k : Addr), exec i s = .next t → storeAddr s i ≠ some k → t.memRead k = s.memRead k) ∧
  (∀ (s t : State) (k : Addr), step s = .next t → t.memRead k ≠ s.memRead k →
    k = s.pushAddr ∧ ∃ a, decode s.fetchBytes = .ok (.push a, []) ∨ decode s.fetchBytes = .ok (.call a, []))

/-- The output changes only by a PRN, which appends its register; no element is ever removed or changed (10_state.md R22,
the spec's decision D14). -/
def Obligations.OutputGrowsOnlyByPrn : Prop :=
  ∀ s t : State, step s = .next t → t.out = s.out ∨
    ∃ (a : Byte) (ha : a.toNat < 8), decode s.fetchBytes = .ok (.prn a, []) ∧ t.out = s.out ++ [s.reg ⟨a.toNat, ha⟩]

/-- L, G, the fault record and the output never influence a run: from two states that differ in nothing else, every number
of steps succeeds in both, leaves them differing in nothing else, and prints the same (10_state.md R17, R20, R22; R17's
remark on L and G is marked derived). -/
def Obligations.UnreadStateNeverInfluencesARun : Prop :=
  ∀ (s s' : State) (k : Nat), SameToPrograms s s' →
    ∃ t t', Sys2Proof.core.run k s = .next t ∧ Sys2Proof.core.run k s' = .next t' ∧ SameToPrograms t t' ∧
      ∃ printed, t.out = s.out ++ printed ∧ t'.out = s'.out ++ printed

/-! ### Reset, invariants, the end of a run -/

/-- The state after reset, the table of 10_state.md R25. The values of `x[0..6]`, `running`, `fault` and `out` are the
spec's decisions D11, D12, D8, D14 (log entry 2 for `x[0..6]`). -/
def Obligations.ResetStateHoldsTheValuesOfTheResetTable : Prop :=
  (∀ r : RegIdx, r ≠ 7 → State.reset.reg r = 0x00#8) ∧ State.reset.sp = 0xF4#8 ∧ State.reset.pc = 0x00#8 ∧
  State.reset.flags = ⟨false, false, false⟩ ∧ State.reset.running = false ∧ State.reset.fault = none ∧
  (∀ k : Addr, State.reset.memRead k = 0x00#8) ∧ State.reset.out = []

/-- Every step keeps the invariant: the memory canonical, at most one flag set, and a recorded fault meaning a stopped
engine and telling the truth about it (10_state.md R17, R20; 43_alu.md R94; 60_exceptions.md R131, R133, R135). -/
def Obligations.EveryStepKeepsTheInvariant : Prop :=
  ∀ s t : State, Inv s → step s = .next t → Inv t

/-- The reset state meets the invariant. -/
def Obligations.ResetMeetsTheInvariant : Prop := Inv State.reset

/-- A recorded fault is never cleared or overwritten, and nothing runs after it (60_exceptions.md R135): every number of
steps leaves the whole state as it is. -/
def Obligations.RecordedFaultIsFinal : Prop :=
  ∀ (s : State) (r : FaultRecord) (k : Nat), Inv s → s.fault = some r → Sys2Proof.core.run k s = .next s

/-- A run ends in exactly two ways (70_reset_and_hazards.md R166): HLT, with nothing but `running` changed, or a fault
raised, never UnsupportedOperation (43_alu.md R101). That HLT leaves the program counter too is the spec's decision D7
(41_system.md R80; log entry 3), and the state a fault leaves is its D10 (log entry 9). -/
def Obligations.RunEndsOnlyByHltOrFault : Prop :=
  ∀ s t : State, s.running = true → step s = .next t → t.running = false →
    (decode s.fetchBytes = .ok (.hlt, []) ∧ t = { s with running := false }) ∨
    (∃ f n, f ≠ .unsupportedOperation ∧ t = s.raise f n)

/-- Two canonical memories whose 256 cells read alike are the same list: the canonical form makes equal memories equal
data (10_state.md R21; the form is the model's choice, log entry 1). -/
def Obligations.CanonicalMemoriesReadingAlikeAreEqual : Prop :=
  ∀ m n : Memory, Memory.wf m = true → Memory.wf n = true → (∀ k, k < 256 → Memory.get m k = Memory.get n k) → m = n

/-- The numeric codes of the faults (60_exceptions.md R131; the spec's decision D8). -/
def Obligations.FaultCodesAreTheTable : Prop :=
  State.reset.faultCode = 0 ∧
  ∀ (s : State) (n : Nat),
    (s.raise .invalidInstruction n).faultCode = 1 ∧ (s.raise .addressOutOfRange n).faultCode = 2 ∧
    (s.raise .invalidRegisterIndex n).faultCode = 3 ∧ (s.raise .stackOverflow n).faultCode = 4 ∧
    (s.raise .stackUnderflow n).faultCode = 5 ∧ (s.raise .unsupportedOperation n).faultCode = 6

/-! ### The host -/

/-- Load (70_reset_and_hazards.md R163): before Run and with the engine stopped, at most 256 bytes are copied from address
0 upward and nothing else changes; a longer array is refused (that nothing is written then is the spec's decision D15). -/
def Obligations.LoadCopiesFromAddressZero : Prop :=
  ∀ (bytes : List Byte) (h : Session), h.engine.running = false → h.phase ≠ .started →
    (bytes.length > 256 → hostLoad bytes h = .refused .programTooLarge) ∧
    (bytes.length ≤ 256 → ∃ s, hostLoad bytes h = .next ⟨s, .loaded⟩ ∧
      (∀ k : Addr, s.memRead k = (bytes[k.toNat]?).getD (h.engine.memRead k)) ∧ s = { h.engine with mem := s.mem })

/-- Reset, Load, Run: the first instruction executed is the one whose bytes begin the loaded array (70_reset_and_hazards.md
R161, R162, R165; the sequence is the spec's decision D12). -/
def Obligations.LoadedProgramStartsAtItsFirstByte : Prop :=
  ∀ (i : Instr) (rest : List Byte), (encode i ++ rest).length ≤ 256 →
    ∃ h, hostOps [.load (encode i ++ rest), .run] Session.start = .next h ∧
      h.engine = { State.reset with running := true, mem := h.engine.mem } ∧ step h.engine = exec i h.engine

/-- Running off the end of a loaded program of `n` bytes, `n` at most 255, faults with InvalidInstruction at `n`, opcode
byte 0 (60_exceptions.md R137, marked derived): the next step of every running engine that holds the loaded memory
and has come to address `n`. -/
def Obligations.RunningOffTheEndFaults : Prop :=
  ∀ (bytes : List Byte) (h : Session) (s : State), bytes.length ≤ 255 →
    hostOps [.load bytes, .run] Session.start = .next h → s.mem = h.engine.mem → s.running = true →
    s.pc.toNat = bytes.length → step s = .next (s.raise .invalidInstruction 0)

/-- The host's moves (70_reset_and_hazards.md R162, R165, R168; 10_state.md R24; 40_execution_cycle.md R71; the spec's
decisions D12, D17; log entry 11): Run only after a Load and not twice; no Load after Run; no move but receiving output
while the engine runs; reading the state only after the run, refused before Run; Reset before Run and after the run. -/
def Obligations.HostSequenceIsResetLoadRun : Prop :=
  ∀ h : Session,
    (h.engine.running = true → hostReset h = .refused .engineRunning ∧ hostRun h = .refused .engineRunning ∧
      hostObserve h = .refused .engineRunning ∧ ∀ bytes, hostLoad bytes h = .refused .engineRunning) ∧
    (h.engine.running = false → hostReset h = .next ⟨State.reset, .fresh⟩) ∧
    (h.engine.running = false → h.phase = .fresh → hostRun h = .refused .outOfSequence ∧
      hostObserve h = .refused .outOfSequence) ∧
    (h.engine.running = false → h.phase = .loaded → hostRun h = .next ⟨{ h.engine with running := true }, .started⟩ ∧
      hostObserve h = .refused .outOfSequence) ∧
    (h.engine.running = false → h.phase = .started → hostRun h = .refused .outOfSequence ∧
      hostObserve h = .next h.engine ∧ ∀ bytes, hostLoad bytes h = .refused .outOfSequence)

/-- The model's own placing of a table word (log entry 5): the very next step runs the instruction the decoder reads from
it, and nothing but the memory and the running flag is changed to that end. -/
def Obligations.PlacedWordRunsNext : Prop :=
  ∀ (s : State) (nbits w : Nat) (i : Instr), s.pc.toNat ≤ 253 → decodeTableWord nbits w = some i →
    step (s.withFetchWord nbits w) = exec i (s.withFetchWord nbits w) ∧
    s.withFetchWord nbits w = { s with running := true, mem := (s.withFetchWord nbits w).mem }
end

