-- ==== Sys2Proof/Laws/HostOps.lean ====
section
/-! SUPPORT. One lemma per host operation that says everything its acceptance means. -/

namespace Sys2Proof.Machine

/-- Reading is answered exactly after the run, with the engine's state (70_reset_and_hazards.md R168). -/
theorem hostObserve_next_iff {h : Session} {s : State} :
    hostObserve h = .next s ↔ h.engine.running = false ∧ h.phase = .started ∧ h.engine = s := by
  unfold hostObserve
  split <;> [simp_all; split <;> simp_all]

/-- Reset is accepted exactly while the engine is stopped (70_reset_and_hazards.md R160, R168). -/
theorem hostReset_next_iff {h h' : Session} :
    hostReset h = .next h' ↔ h.engine.running = false ∧ Session.start = h' := by
  unfold hostReset
  split <;> simp_all

/-- Run is accepted exactly after a Load and before an earlier Run (70_reset_and_hazards.md R162, R165). -/
theorem hostRun_next_iff {h h' : Session} :
    hostRun h = .next h' ↔ h.engine.running = false ∧ h.phase = .loaded ∧ ⟨h.engine.start, .started⟩ = h' := by
  unfold hostRun
  split <;> [simp_all; split <;> simp_all]

/-- Load is accepted exactly before Run, for at most 256 bytes (70_reset_and_hazards.md R163). -/
theorem hostLoad_next_iff {bytes : List Byte} {h h' : Session} :
    hostLoad bytes h = .next h' ↔ h.engine.running = false ∧ h.phase ≠ .started ∧ bytes.length ≤ Config.memSize ∧
      ⟨h.engine.loadBytes bytes, .loaded⟩ = h' := by
  unfold hostLoad
  split <;> [simp_all; split <;> [simp_all; split <;> simp_all]]

end Sys2Proof.Machine
end

