-- ==== Sys2Proof/Laws/State.lean ====
section
/-! SUPPORT. The small lemmas of the state updates: what each field is after each named update. -/

namespace Sys2Proof.Machine

section
variable (s : State) (i j : RegIdx) (v : Byte) (a k : Addr) (f : Flags) (n : Nat) (c : Fault)

@[simp] theorem State.setReg_pc : (s.setReg i v).pc = s.pc := rfl
@[simp] theorem State.setReg_flags : (s.setReg i v).flags = s.flags := rfl
@[simp] theorem State.setReg_running : (s.setReg i v).running = s.running := rfl
@[simp] theorem State.setReg_fault : (s.setReg i v).fault = s.fault := rfl
@[simp] theorem State.setReg_mem : (s.setReg i v).mem = s.mem := rfl
@[simp] theorem State.setReg_out : (s.setReg i v).out = s.out := rfl
@[simp] theorem State.setReg_memRead : (s.setReg i v).memRead a = s.memRead a := rfl

theorem State.setReg_reg : (s.setReg i v).reg j = if i = j then v else s.reg j := by
  simp [State.reg, State.setReg, Vector.getElem_set, Fin.ext_iff]

@[simp] theorem State.setReg_reg_same : (s.setReg i v).reg i = v := by simp [State.setReg_reg]

theorem State.setReg_reg_other (h : i ≠ j) : (s.setReg i v).reg j = s.reg j := by simp [State.setReg_reg, h]

@[simp] theorem State.setPc_regs : (s.setPc a).regs = s.regs := rfl
@[simp] theorem State.setPc_pc : (s.setPc a).pc = a := rfl
@[simp] theorem State.setPc_flags : (s.setPc a).flags = s.flags := rfl
@[simp] theorem State.setPc_running : (s.setPc a).running = s.running := rfl
@[simp] theorem State.setPc_fault : (s.setPc a).fault = s.fault := rfl
@[simp] theorem State.setPc_mem : (s.setPc a).mem = s.mem := rfl
@[simp] theorem State.setPc_out : (s.setPc a).out = s.out := rfl
@[simp] theorem State.setPc_reg : (s.setPc a).reg i = s.reg i := rfl
@[simp] theorem State.setPc_sp : (s.setPc a).sp = s.sp := rfl
@[simp] theorem State.setPc_memRead : (s.setPc a).memRead k = s.memRead k := rfl

@[simp] theorem State.advance_regs : (s.advance n).regs = s.regs := rfl
@[simp] theorem State.advance_pc : (s.advance n).pc = s.pc + BitVec.ofNat 8 n := rfl
@[simp] theorem State.advance_flags : (s.advance n).flags = s.flags := rfl
@[simp] theorem State.advance_running : (s.advance n).running = s.running := rfl
@[simp] theorem State.advance_fault : (s.advance n).fault = s.fault := rfl
@[simp] theorem State.advance_mem : (s.advance n).mem = s.mem := rfl
@[simp] theorem State.advance_out : (s.advance n).out = s.out := rfl
@[simp] theorem State.advance_reg : (s.advance n).reg i = s.reg i := rfl
@[simp] theorem State.advance_sp : (s.advance n).sp = s.sp := rfl
@[simp] theorem State.advance_memRead : (s.advance n).memRead k = s.memRead k := rfl

@[simp] theorem State.setFlags_regs : (s.setFlags f).regs = s.regs := rfl
@[simp] theorem State.setFlags_pc : (s.setFlags f).pc = s.pc := rfl
@[simp] theorem State.setFlags_flags : (s.setFlags f).flags = f := rfl
@[simp] theorem State.setFlags_running : (s.setFlags f).running = s.running := rfl
@[simp] theorem State.setFlags_fault : (s.setFlags f).fault = s.fault := rfl
@[simp] theorem State.setFlags_mem : (s.setFlags f).mem = s.mem := rfl
@[simp] theorem State.setFlags_out : (s.setFlags f).out = s.out := rfl
@[simp] theorem State.setFlags_reg : (s.setFlags f).reg i = s.reg i := rfl
@[simp] theorem State.setFlags_memRead : (s.setFlags f).memRead a = s.memRead a := rfl

@[simp] theorem State.output_regs : (s.output v).regs = s.regs := rfl
@[simp] theorem State.output_pc : (s.output v).pc = s.pc := rfl
@[simp] theorem State.output_flags : (s.output v).flags = s.flags := rfl
@[simp] theorem State.output_running : (s.output v).running = s.running := rfl
@[simp] theorem State.output_fault : (s.output v).fault = s.fault := rfl
@[simp] theorem State.output_mem : (s.output v).mem = s.mem := rfl
@[simp] theorem State.output_out : (s.output v).out = s.out ++ [v] := rfl
@[simp] theorem State.output_reg : (s.output v).reg i = s.reg i := rfl
@[simp] theorem State.output_memRead : (s.output v).memRead a = s.memRead a := rfl

@[simp] theorem State.halt_regs : s.halt.regs = s.regs := rfl
@[simp] theorem State.halt_pc : s.halt.pc = s.pc := rfl
@[simp] theorem State.halt_flags : s.halt.flags = s.flags := rfl
@[simp] theorem State.halt_running : s.halt.running = false := rfl
@[simp] theorem State.halt_fault : s.halt.fault = s.fault := rfl
@[simp] theorem State.halt_mem : s.halt.mem = s.mem := rfl
@[simp] theorem State.halt_out : s.halt.out = s.out := rfl

@[simp] theorem State.raise_regs : (s.raise c n).regs = s.regs := rfl
@[simp] theorem State.raise_pc : (s.raise c n).pc = s.pc := rfl
@[simp] theorem State.raise_flags : (s.raise c n).flags = s.flags := rfl
@[simp] theorem State.raise_running : (s.raise c n).running = false := rfl
@[simp] theorem State.raise_fault : (s.raise c n).fault = some ⟨c, s.pc, n⟩ := rfl
@[simp] theorem State.raise_mem : (s.raise c n).mem = s.mem := rfl
@[simp] theorem State.raise_out : (s.raise c n).out = s.out := rfl
@[simp] theorem State.raise_reg : (s.raise c n).reg i = s.reg i := rfl
@[simp] theorem State.raise_memRead : (s.raise c n).memRead a = s.memRead a := rfl

@[simp] theorem State.memWrite_regs : (s.memWrite a v).regs = s.regs := rfl
@[simp] theorem State.memWrite_pc : (s.memWrite a v).pc = s.pc := rfl
@[simp] theorem State.memWrite_flags : (s.memWrite a v).flags = s.flags := rfl
@[simp] theorem State.memWrite_running : (s.memWrite a v).running = s.running := rfl
@[simp] theorem State.memWrite_fault : (s.memWrite a v).fault = s.fault := rfl
@[simp] theorem State.memWrite_mem : (s.memWrite a v).mem = Memory.put s.mem a.toNat v := rfl
@[simp] theorem State.memWrite_out : (s.memWrite a v).out = s.out := rfl
@[simp] theorem State.memWrite_reg : (s.memWrite a v).reg i = s.reg i := rfl

theorem State.sp_eq : s.sp = s.reg Config.spIndex := rfl

end

end Sys2Proof.Machine
end

