-- ==== Sys2Proof/Laws/Memory.lean ====
section
/-! SUPPORT. The laws of the memory: a read after a write, in every state, and the canonical form kept by every memory
operation. -/

namespace Sys2Proof.Machine

theorem Memory.get_erase (m : Memory) (k j : Nat) :
    Memory.get (Memory.erase m k) j = if k = j then Config.memReset else Memory.get m j := by
  induction m with
  | nil => simp [Memory.erase, Memory.get]
  | cons c m ih => grind [Memory.erase, Memory.get]

theorem Memory.get_insert (m : Memory) (k j : Nat) (v : Byte) (hk : Memory.get m k = Config.memReset)
    (hfree : ∀ c ∈ m, c.1 ≠ k) : Memory.get (Memory.insert m k v) j = if k = j then v else Memory.get m j := by
  induction m with
  | nil => simp [Memory.insert, Memory.get]
  | cons c m ih => grind [Memory.insert, Memory.get]

theorem Memory.erase_free (m : Memory) (k : Nat) : ∀ c ∈ Memory.erase m k, c.1 ≠ k := by
  induction m with
  | nil => simp [Memory.erase]
  | cons c m ih => grind [Memory.erase]

/-- A read after a write: the written cell holds the value, every other cell is as before (20_memory.md R32). -/
theorem Memory.get_put (m : Memory) (k j : Nat) (v : Byte) :
    Memory.get (Memory.put m k v) j = if k = j then v else Memory.get m j := by
  unfold Memory.put
  split
  · next h => rw [Memory.get_erase, h]
  · next h =>
    rw [Memory.get_insert _ _ _ _ (by simp [Memory.get_erase]) (Memory.erase_free m k), Memory.get_erase]
    split <;> rfl

theorem Memory.wfFrom_mono {low low' : Nat} {m : Memory} (h : low' ≤ low) (hm : Memory.wfFrom low m = true) :
    Memory.wfFrom low' m = true := by
  cases m with
  | nil => rfl
  | cons c m => grind [Memory.wfFrom]

theorem Memory.wfFrom_erase {low k : Nat} {m : Memory} (hm : Memory.wfFrom low m = true) :
    Memory.wfFrom low (Memory.erase m k) = true := by
  induction m generalizing low with
  | nil => rfl
  | cons c m ih =>
    obtain ⟨j, v⟩ := c
    simp only [Memory.wfFrom, Bool.and_eq_true, decide_eq_true_eq] at hm
    simp only [Memory.erase]
    split
    · exact Memory.wfFrom_mono (by omega) (ih hm.2)
    · simpa [Memory.wfFrom, hm.1] using ih hm.2

theorem Memory.wfFrom_insert {low k : Nat} {m : Memory} {v : Byte} (hm : Memory.wfFrom low m = true)
    (hfree : ∀ c ∈ m, c.1 ≠ k) (hlow : low ≤ k) (hk : k < Config.memSize) (hv : v ≠ Config.memReset) :
    Memory.wfFrom low (Memory.insert m k v) = true := by
  induction m generalizing low with
  | nil => simp [Memory.insert, Memory.wfFrom, hlow, hk, hv]
  | cons c m ih =>
    obtain ⟨j, u⟩ := c
    simp only [Memory.wfFrom, Bool.and_eq_true, decide_eq_true_eq] at hm
    have hjk : j ≠ k := hfree (j, u) (by simp)
    simp only [Memory.insert]
    split
    · next h =>
      have hj : k + 1 ≤ j := h
      simp [Memory.wfFrom, hlow, hk, hv, hm, hj]
    · next h =>
      have := ih hm.2 (fun c hc => hfree c (by simp [hc])) (by omega)
      simpa [Memory.wfFrom, hm.1] using this

/-- A write inside the memory keeps the canonical form. -/
theorem Memory.wf_put {m : Memory} {k : Nat} (v : Byte) (hm : Memory.wf m = true) (hk : k < Config.memSize) :
    Memory.wf (Memory.put m k v) = true := by
  unfold Memory.put
  split
  · exact Memory.wfFrom_erase hm
  · next h => exact Memory.wfFrom_insert (Memory.wfFrom_erase hm) (Memory.erase_free m k) (Nat.zero_le k) hk h

theorem State.memRead_memWrite (s : State) (a k : Addr) (v : Byte) :
    (s.memWrite a v).memRead k = if a = k then v else s.memRead k := by
  simp [State.memRead, State.memWrite, Memory.get_put, BitVec.toNat_eq]

/-- Every memory write of the machine keeps the canonical form: an 8-bit address is inside the memory. -/
theorem State.memWrite_wf {s : State} (a : Addr) (v : Byte) (h : Memory.wf s.mem = true) :
    Memory.wf (s.memWrite a v).mem = true :=
  Memory.wf_put v h a.isLt

theorem State.reset_wf : Memory.wf State.reset.mem = true := rfl

end Sys2Proof.Machine
end

