-- ==== Sys2Proof/Laws/Ops.lean ====
section
/-! SUPPORT. One lemma per shared operation that says everything it can do; proofs cite these and do not unfold the
operation. -/

namespace Sys2Proof.Machine

/-! ### The checks -/

theorem operandsInMemory_eq (s : State) (len : Nat) :
    operandsInMemory s len = if 255 < s.pc.toNat + len - 1 then .error (.addressOutOfRange, 256) else .ok () := rfl

theorem successorInMemory_eq (s : State) (len : Nat) :
    successorInMemory s len = if 255 < s.pc.toNat + len then .error (.addressOutOfRange, 256) else .ok () := rfl

theorem regIndex_of_lt {a : Byte} (h : a.toNat < 8) : regIndex a = .ok ⟨a.toNat, h⟩ := by simp [regIndex, h]

theorem regIndex_of_ge {a : Byte} (h : 8 ≤ a.toNat) : regIndex a = .error (.invalidRegisterIndex, a.toNat) := by
  simp [regIndex, Nat.not_lt.mpr h]

/-- Every register has an operand byte that names it. -/
theorem regIndex_ofNat (r : RegIdx) : regIndex (BitVec.ofNat 8 r.val) = .ok r := by
  have h : (BitVec.ofNat 8 r.val).toNat = r.val := by simp; omega
  rw [regIndex_of_lt (by omega)]
  simp [h]

/-! ### The step's outcome -/

/-- An attempt answers a next state and nothing else: the value's, or the fault taken on the old state. -/
theorem State.attempt_next {s t : State} {x : Attempt State} (h : s.attempt x = .next t) :
    x = .ok t ∨ ∃ f n, x = .error (f, n) ∧ t = s.raise f n := by
  cases x with
  | ok u => left; simpa [State.attempt] using h
  | error e => right; exact ⟨e.1, e.2, rfl, by simpa [State.attempt] using h.symm⟩

@[simp] theorem State.attempt_ok (s t : State) : s.attempt (.ok t) = .next t := rfl

@[simp] theorem State.attempt_error (s : State) (f : Fault) (n : Nat) : s.attempt (.error (f, n)) = .next (s.raise f n) := rfl

/-- A check that passes hands on its value. -/
theorem Attempt.ok_bind {α β : Type} (x : α) (f : α → Attempt β) : (Except.ok x : Attempt α) >>= f = f x := rfl

/-- A check that fails ends the attempt with its own fault. -/
theorem Attempt.error_bind {α β : Type} (e : Fault × Nat) (f : α → Attempt β) :
    (Except.error e : Attempt α) >>= f = .error e := rfl

/-! ### The shared meanings -/

/-- Everything a two-operand ALU instruction can do: four faults in order, or the ALU and `pc <- pc + 3`. -/
theorem aluTwoOperand_eq (op : AluOp) (a b : Byte) (s : State) :
    aluTwoOperand op a b s =
      if 254 ≤ s.pc.toNat then .next (s.raise .addressOutOfRange 256)
      else if ha : a.toNat < 8 then
        if hb : b.toNat < 8 then
          if s.pc.toNat = 253 then .next (s.raise .addressOutOfRange 256)
          else .next ((s.alu op ⟨a.toNat, ha⟩ ⟨b.toNat, hb⟩).advance 3)
        else .next (s.raise .invalidRegisterIndex b.toNat)
      else .next (s.raise .invalidRegisterIndex a.toNat) := by
  simp only [aluTwoOperand, operandsInMemory_eq, successorInMemory_eq, regIndex]
  split_ifs <;> first | rfl | omega

/-- Everything a jump can do: an operand missing, a bad index, the target, or the fall-through with its own fault. -/
theorem jumpIf_eq (taken : Bool) (a : Byte) (s : State) :
    jumpIf taken a s =
      if s.pc.toNat = 255 then .next (s.raise .addressOutOfRange 256)
      else if ha : a.toNat < 8 then
        if taken = true then .next (s.setPc (s.reg ⟨a.toNat, ha⟩))
        else if s.pc.toNat = 254 then .next (s.raise .addressOutOfRange 256)
        else .next (s.advance 2)
      else .next (s.raise .invalidRegisterIndex a.toNat) := by
  have := s.pc.isLt
  simp only [jumpIf, operandsInMemory_eq, successorInMemory_eq, regIndex]
  split_ifs <;> first | rfl | omega

/-! ### The stack -/

theorem State.decSp_reg (s : State) (i : RegIdx) :
    s.decSp.reg i = if Config.spIndex = i then s.pushAddr else s.reg i := State.setReg_reg ..

theorem State.incSp_reg (s : State) (i : RegIdx) :
    s.incSp.reg i = if Config.spIndex = i then s.sp + 1 else s.reg i := State.setReg_reg ..

/-- The cells after a push: the one at the decremented stack pointer holds the value, read after the decrement. -/
theorem State.push_memRead (s : State) (value : State → Byte) (k : Addr) :
    (s.push value).memRead k = if s.pushAddr = k then value s.decSp else s.memRead k := by
  simp only [State.push, State.memRead_memWrite]
  rfl

/-- The registers after a push: only the stack pointer changes. -/
theorem State.push_reg (s : State) (value : State → Byte) (i : RegIdx) :
    (s.push value).reg i = if Config.spIndex = i then s.pushAddr else s.reg i := State.setReg_reg ..

@[simp] theorem State.push_pc (s : State) (value : State → Byte) : (s.push value).pc = s.pc := rfl
@[simp] theorem State.push_flags (s : State) (value : State → Byte) : (s.push value).flags = s.flags := rfl
@[simp] theorem State.push_running (s : State) (value : State → Byte) : (s.push value).running = s.running := rfl
@[simp] theorem State.push_fault (s : State) (value : State → Byte) : (s.push value).fault = s.fault := rfl
@[simp] theorem State.push_out (s : State) (value : State → Byte) : (s.push value).out = s.out := rfl

theorem State.push_wf {s : State} (value : State → Byte) (h : Memory.wf s.mem = true) :
    Memory.wf (s.push value).mem = true := State.memWrite_wf (s := s.decSp) _ _ h

@[simp] theorem State.incSp_pc (s : State) : s.incSp.pc = s.pc := rfl
@[simp] theorem State.incSp_flags (s : State) : s.incSp.flags = s.flags := rfl
@[simp] theorem State.incSp_running (s : State) : s.incSp.running = s.running := rfl
@[simp] theorem State.incSp_fault (s : State) : s.incSp.fault = s.fault := rfl
@[simp] theorem State.incSp_mem (s : State) : s.incSp.mem = s.mem := rfl
@[simp] theorem State.incSp_out (s : State) : s.incSp.out = s.out := rfl
@[simp] theorem State.incSp_memRead (s : State) (k : Addr) : s.incSp.memRead k = s.memRead k := rfl

/-! ### The ALU -/

/-- The registers after an ALU operation: only `x[a]` can change, and CMP changes none. -/
theorem State.alu_reg (s : State) (op : AluOp) (a b i : RegIdx) (h : a ≠ i ∨ op = .cmp) :
    (s.alu op a b).reg i = s.reg i := by
  cases op <;> simp_all [State.alu, State.setReg_reg]

/-- The flags after an ALU operation: CMP's, or as before. -/
theorem State.alu_flags (s : State) (op : AluOp) (a b : RegIdx) :
    (s.alu op a b).flags = if op = .cmp then compareFlags (s.reg a) (s.reg b) else s.flags := by
  cases op <;> rfl

@[simp] theorem State.alu_pc (s : State) (op : AluOp) (a b : RegIdx) : (s.alu op a b).pc = s.pc := by cases op <;> rfl
@[simp] theorem State.alu_running (s : State) (op : AluOp) (a b : RegIdx) : (s.alu op a b).running = s.running := by cases op <;> rfl
@[simp] theorem State.alu_fault (s : State) (op : AluOp) (a b : RegIdx) : (s.alu op a b).fault = s.fault := by cases op <;> rfl
@[simp] theorem State.alu_mem (s : State) (op : AluOp) (a b : RegIdx) : (s.alu op a b).mem = s.mem := by cases op <;> rfl
@[simp] theorem State.alu_out (s : State) (op : AluOp) (a b : RegIdx) : (s.alu op a b).out = s.out := by cases op <;> rfl

end Sys2Proof.Machine
end

