-- ==== Sys2Proof/Laws/PerInstr.lean ====
section
/-! SUPPORT. Statements about every instruction as syntax, one lemma per constructor. -/

namespace Sys2Proof.Laws

/-- The operand bytes that the checks of stage 4 look at are exactly those that well-formedness speaks of
(30_encoding.md R52). -/
def OperandsValid.Statement (i : Instr) : Prop :=
  wellFormed i = (Machine.registerOperands i).all validIndex

theorem OperandsValid.hlt : OperandsValid.Statement .hlt := rfl
theorem OperandsValid.ldi (a imm8 : Byte) : OperandsValid.Statement (.ldi a imm8) := by
  simp [OperandsValid.Statement, wellFormed, Machine.registerOperands]
theorem OperandsValid.prn (a : Byte) : OperandsValid.Statement (.prn a) := by
  simp [OperandsValid.Statement, wellFormed, Machine.registerOperands]
theorem OperandsValid.mul (a b : Byte) : OperandsValid.Statement (.mul a b) := by
  simp [OperandsValid.Statement, wellFormed, Machine.registerOperands]
theorem OperandsValid.add (a b : Byte) : OperandsValid.Statement (.add a b) := by
  simp [OperandsValid.Statement, wellFormed, Machine.registerOperands]
theorem OperandsValid.cmp (a b : Byte) : OperandsValid.Statement (.cmp a b) := by
  simp [OperandsValid.Statement, wellFormed, Machine.registerOperands]
theorem OperandsValid.and (a b : Byte) : OperandsValid.Statement (.and a b) := by
  simp [OperandsValid.Statement, wellFormed, Machine.registerOperands]
theorem OperandsValid.or (a b : Byte) : OperandsValid.Statement (.or a b) := by
  simp [OperandsValid.Statement, wellFormed, Machine.registerOperands]
theorem OperandsValid.xor (a b : Byte) : OperandsValid.Statement (.xor a b) := by
  simp [OperandsValid.Statement, wellFormed, Machine.registerOperands]
theorem OperandsValid.not (a : Byte) : OperandsValid.Statement (.not a) := by
  simp [OperandsValid.Statement, wellFormed, Machine.registerOperands]
theorem OperandsValid.push (a : Byte) : OperandsValid.Statement (.push a) := by
  simp [OperandsValid.Statement, wellFormed, Machine.registerOperands]
theorem OperandsValid.pop (a : Byte) : OperandsValid.Statement (.pop a) := by
  simp [OperandsValid.Statement, wellFormed, Machine.registerOperands]
theorem OperandsValid.call (a : Byte) : OperandsValid.Statement (.call a) := by
  simp [OperandsValid.Statement, wellFormed, Machine.registerOperands]
theorem OperandsValid.ret : OperandsValid.Statement .ret := rfl
theorem OperandsValid.jmp (a : Byte) : OperandsValid.Statement (.jmp a) := by
  simp [OperandsValid.Statement, wellFormed, Machine.registerOperands]
theorem OperandsValid.jeq (a : Byte) : OperandsValid.Statement (.jeq a) := by
  simp [OperandsValid.Statement, wellFormed, Machine.registerOperands]
theorem OperandsValid.jne (a : Byte) : OperandsValid.Statement (.jne a) := by
  simp [OperandsValid.Statement, wellFormed, Machine.registerOperands]

end Sys2Proof.Laws
end

