-- ==== Sys2Proof/Tests/Slice0.lean ====
section
/-! SUPPORT. The model's own tests. Expected values are from spec/95_test_vectors.md (the vector's id is in the test's
comment) or, in the witnesses, written out by hand from the rule. -/

namespace Sys2Proof.Tests
open Sys2Proof Sys2Proof.Machine Sys2Proof.Claims

/-! ### Helpers -/

/-- A started engine after reset with `bytes` at address `pc`, where the program counter stands. -/
def engine (pc : Nat) (bytes : List Byte) : State :=
  { State.reset.writeBytes pc bytes with pc := BitVec.ofNat 8 pc, running := true }

/-- The next state, if there is one. -/
def nextOf : Out → Option State
  | .next s => some s
  | .fault _ => none
  | .refused _ => none

/-- The session after host operations, if none is refused. -/
def sessionOf : HostOut → Option Session
  | .next h => some h
  | .fault _ => none
  | .refused _ => none

/-- The fault a step records, as (cause, fault_pc, fault_info). -/
def faultOf (o : Out) : Option FaultRecord := (nextOf o).bind State.fault

/-! ### Decoding: the words of 30_encoding.md R54, bit by bit -/

theorem test_decode_hlt : decode [0b00000001#8] = .ok (.hlt, []) := by decide
theorem test_decode_ldi : decode [0b10000010#8, 0b00000011#8, 0b11111111#8] = .ok (.ldi 3#8 255#8, []) := by decide
theorem test_decode_prn : decode [0b01000111#8, 0b00000111#8] = .ok (.prn 7#8, []) := by decide
theorem test_decode_mul : decode [0b10100010#8, 0b00000001#8, 0b00000010#8] = .ok (.mul 1#8 2#8, []) := by decide
theorem test_decode_add : decode [0b10100000#8, 0b00000010#8, 0b00000011#8] = .ok (.add 2#8 3#8, []) := by decide
theorem test_decode_cmp : decode [0b10100111#8, 0b11111111#8, 0b00000000#8] = .ok (.cmp 255#8 0#8, []) := by decide
theorem test_decode_and : decode [0b10101000#8, 0b00000100#8, 0b00000101#8] = .ok (.and 4#8 5#8, []) := by decide
theorem test_decode_or : decode [0b10101010#8, 0b00000101#8, 0b00000110#8] = .ok (.or 5#8 6#8, []) := by decide
theorem test_decode_xor : decode [0b10101011#8, 0b00000110#8, 0b00000111#8] = .ok (.xor 6#8 7#8, []) := by decide
theorem test_decode_not : decode [0b01101001#8, 0b00000000#8, 0b01010101#8] = .ok (.not 0#8, [0b01010101#8]) := by decide
theorem test_decode_push : decode [0b01000101#8, 0b00000001#8] = .ok (.push 1#8, []) := by decide
theorem test_decode_pop : decode [0b01000110#8, 0b11001000#8] = .ok (.pop 200#8, []) := by decide
theorem test_decode_call : decode [0b01010000#8, 0b00000001#8] = .ok (.call 1#8, []) := by decide
theorem test_decode_ret : decode [0b00010001#8] = .ok (.ret, []) := by decide
theorem test_decode_jmp : decode [0b01010100#8, 0b00000011#8] = .ok (.jmp 3#8, []) := by decide
theorem test_decode_jeq : decode [0b01010101#8, 0b00000010#8] = .ok (.jeq 2#8, []) := by decide
theorem test_decode_jne : decode [0b01010110#8, 0b00000011#8] = .ok (.jne 3#8, []) := by decide

/-- Neighbours of opcodes, 0x00 and 0xFF are invalid whatever follows (V40-1 to V40-7). -/
theorem test_decode_rejects :
    decode [0x00#8] = .error (.invalidOpcode 0x00#8) ∧ decode [0xFF#8] = .error (.invalidOpcode 0xFF#8) ∧
    decode [0x83#8, 0#8, 0#8] = .error (.invalidOpcode 0x83#8) ∧ decode [0x57#8, 0#8] = .error (.invalidOpcode 0x57#8) ∧
    decode [0xA1#8, 0#8, 1#8] = .error (.invalidOpcode 0xA1#8) ∧ decode [0x02#8] = .error (.invalidOpcode 0x02#8) := by
  decide

/-- A missing operand byte is reported as such, not as a bad index (V40-9, V40-12). -/
theorem test_decode_missing : decode [0xA0#8, 0x09#8] = .error .missingBytes ∧ decode [0x82#8] = .error .missingBytes ∧
    decode [0x54#8] = .error .missingBytes ∧ decode [] = .error .missingBytes := by decide

/-- The opcode table's numbering: byte 0 is the least significant (LDI r3, 255 and RET, and PUSH by its 8 bits alone). -/
theorem test_table_word : decodeTableWord 24 0xFF0382 = some (.ldi 3#8 255#8) ∧ decodeTableWord 8 0x11 = some .ret ∧
    decodeTableWord 8 0xFF45 = some (.push 0#8) ∧ decodeTableWord 8 0x00 = none := by decide

/-! ### WellFormed refuses an ill-formed term for each of its checks -/

theorem test_illformed_one_operand :
    wellFormed (.ldi 8#8 0#8) = false ∧ wellFormed (.prn 8#8) = false ∧ wellFormed (.not 255#8) = false ∧
    wellFormed (.push 8#8) = false ∧ wellFormed (.pop 8#8) = false ∧ wellFormed (.call 8#8) = false ∧
    wellFormed (.jmp 8#8) = false ∧ wellFormed (.jeq 8#8) = false ∧ wellFormed (.jne 8#8) = false := by decide

theorem test_illformed_first_operand :
    wellFormed (.mul 8#8 0#8) = false ∧ wellFormed (.add 8#8 0#8) = false ∧ wellFormed (.cmp 8#8 0#8) = false ∧
    wellFormed (.and 8#8 0#8) = false ∧ wellFormed (.or 8#8 0#8) = false ∧ wellFormed (.xor 8#8 0#8) = false := by decide

theorem test_illformed_second_operand :
    wellFormed (.mul 0#8 8#8) = false ∧ wellFormed (.add 0#8 8#8) = false ∧ wellFormed (.cmp 0#8 8#8) = false ∧
    wellFormed (.and 0#8 8#8) = false ∧ wellFormed (.or 0#8 8#8) = false ∧ wellFormed (.xor 0#8 8#8) = false := by decide

/-- Every register is a valid operand and every immediate is legal (R52, R53). -/
theorem test_wellformed : wellFormed (.add 7#8 7#8) = true ∧ wellFormed (.ldi 7#8 255#8) = true ∧ wellFormed .hlt = true ∧
    wellFormed .ret = true := by decide

/-! ### Single steps, from the vectors of 95_test_vectors.md -/

/-- V41-1, V40-19: the program counter stays, also at 255. -/
theorem test_hlt : (nextOf (step (engine 0x0B [0x01#8]))).map (fun t => (t.running, t.fault, t.pc)) = some (false, none, 0x0B#8) ∧
    (nextOf (step (engine 0xFF [0x01#8]))).map (fun t => (t.running, t.pc)) = some (false, 0xFF#8) := by decide

/-- V41-5, V41-9: r7 prints 244; the last legal position. -/
theorem test_prn : (nextOf (step (engine 0 [0x47#8, 0x07#8]))).map (fun t => (t.pc, t.out)) = some (2#8, [244#8]) ∧
    (nextOf (step ((engine 0xFD [0x47#8, 0x00#8]).setReg 0 5#8))).map (fun t => (t.pc, t.out)) = some (0xFF#8, [5#8]) := by
  decide

/-- V42-3, V42-6: no sign extension; r7 is an ordinary destination. -/
theorem test_ldi : (nextOf (step (engine 0 [0x82#8, 0x03#8, 0xFF#8]))).map (fun t => (t.pc, t.reg 3)) = some (3#8, 0xFF#8) ∧
    (nextOf (step (engine 0 [0x82#8, 0x07#8, 0x00#8]))).map (fun t => (t.pc, t.sp)) = some (3#8, 0#8) := by decide

/-- V43-9, V43-12: 200 * 2 mod 256; a = b squares. -/
theorem test_mul :
    (nextOf (step (((engine 6 [0xA2#8, 0#8, 1#8]).setReg 0 0xC8#8).setReg 1 2#8))).map (fun t => (t.reg 0, t.reg 1, t.pc)) =
      some (0x90#8, 2#8, 9#8) ∧
    (nextOf (step ((engine 0 [0xA2#8, 0#8, 0#8]).setReg 0 0x0F#8))).map (·.reg 0) = some 0xE1#8 := by decide

/-- V43-3, V43-7: wraps; the stack pointer is an ordinary destination. -/
theorem test_add :
    (nextOf (step (((engine 0 [0xA0#8, 0#8, 1#8]).setReg 0 0xFF#8).setReg 1 0xFF#8))).map (·.reg 0) = some 0xFE#8 ∧
    (nextOf (step ((engine 0 [0xA0#8, 7#8, 0#8]).setReg 0 0x10#8))).map (fun t => (t.sp, t.fault)) = some (4#8, none) := by
  decide

/-- V43-16, V43-20: less; unsigned. -/
theorem test_cmp :
    (nextOf (step (((engine 0 [0xA7#8, 0#8, 1#8]).setReg 0 5#8).setReg 1 7#8))).map (·.flags) = some ⟨false, true, false⟩ ∧
    (nextOf (step (((engine 0 [0xA7#8, 0#8, 1#8]).setReg 0 0x80#8).setReg 1 0x7F#8))).map (·.flags) =
      some ⟨false, false, true⟩ := by decide

/-- V43-24, V43-28, V43-31: 0xCC and 0xAA. -/
theorem test_and_or_xor :
    (nextOf (step (((engine 0 [0xA8#8, 0#8, 1#8]).setReg 0 0xCC#8).setReg 1 0xAA#8))).map (·.reg 0) = some 0x88#8 ∧
    (nextOf (step (((engine 0 [0xAA#8, 0#8, 1#8]).setReg 0 0xCC#8).setReg 1 0xAA#8))).map (·.reg 0) = some 0xEE#8 ∧
    (nextOf (step (((engine 0 [0xAB#8, 0#8, 1#8]).setReg 0 0xCC#8).setReg 1 0xAA#8))).map (·.reg 0) = some 0x66#8 := by
  decide

/-- V43-36, V43-39: two bytes long, the byte after it is no operand. -/
theorem test_not : (nextOf (step (engine 0 [0x69#8, 0#8]))).map (·.reg 0) = some 0xFF#8 ∧
    (nextOf (step ((engine 0 [0x69#8, 0#8, 0x55#8]).setReg 0 0xAA#8))).map (fun t => (t.reg 0, t.pc)) = some (0x55#8, 2#8) := by
  decide

/-- V44-10, V44-21: PUSH r7 stores the decremented stack pointer; a push onto its own operand byte. -/
theorem test_push :
    (nextOf (step (engine 0 [0x45#8, 7#8]))).map (fun t => (t.sp, t.memRead 0xF3#8, t.pc)) = some (0xF3#8, 0xF3#8, 2#8) ∧
    (nextOf (step (((engine 4 [0x45#8, 0#8]).setReg 0 1#8).setReg 7 6#8))).map (fun t => (t.sp, t.pc, t.memRead 5#8)) =
      some (5#8, 6#8, 1#8) := by decide

/-- V44-13, V44-8: POP r7 at 255 is legal; the upper boundary. -/
theorem test_pop :
    (nextOf (step (((engine 0 [0x46#8, 7#8]).setReg 7 0xFF#8).memWrite 0xFF#8 7#8))).map (·.sp) = some 8#8 ∧
    (nextOf (step (((engine 0x10 [0x46#8, 0#8]).setReg 7 0xFE#8).memWrite 0xFE#8 0x21#8))).map (fun t => (t.reg 0, t.sp)) =
      some (0x21#8, 0xFF#8) := by decide

/-- V45-3, V45-8: CALL r7 jumps to the decremented stack pointer; return address 255. -/
theorem test_call :
    (nextOf (step (engine 0 [0x50#8, 7#8]))).map (fun t => (t.sp, t.pc, t.memRead 0xF3#8)) = some (0xF3#8, 0xF3#8, 2#8) ∧
    (nextOf (step ((engine 0xFD [0x50#8, 0#8]).setReg 0 0x30#8))).map (fun t => (t.pc, t.memRead 0xF3#8)) =
      some (0x30#8, 0xFF#8) := by decide

/-- V45-14, V45-12: RET at 255 is legal; RET with the stack pointer at 255 faults. -/
theorem test_ret :
    (nextOf (step (((engine 0xFF [0x11#8]).setReg 7 0xF3#8).memWrite 0xF3#8 0x10#8))).map (fun t => (t.pc, t.sp)) =
      some (0x10#8, 0xF4#8) ∧
    faultOf (step ((engine 0x40 [0x11#8]).setReg 7 0xFF#8)) = some ⟨.stackUnderflow, 0x40#8, 0⟩ := by decide

/-- V45-18, V45-19: into the stack area; legal at 254. -/
theorem test_jmp : (nextOf (step (engine 0 [0x54#8, 7#8]))).map (·.pc) = some 0xF4#8 ∧
    (nextOf (step ((engine 0xFE [0x54#8, 0#8]).setReg 0 0x10#8))).map (·.pc) = some 0x10#8 := by decide

/-- V45-34, V45-26: only E is read; not taken at 254 faults. -/
theorem test_jeq :
    (nextOf (step (((engine 0 [0x55#8, 0#8]).setReg 0 0x10#8).setFlags ⟨true, true, true⟩))).map (·.pc) = some 0x10#8 ∧
    faultOf (step ((engine 0xFE [0x55#8, 0#8]).setFlags ⟨false, false, true⟩)) = some ⟨.addressOutOfRange, 0xFE#8, 256⟩ := by
  decide

/-- V45-30, V45-29: taken before any CMP; not taken when E = 1. -/
theorem test_jne :
    (nextOf (step ((engine 0x12 [0x56#8, 3#8]).setReg 3 0x0C#8))).map (·.pc) = some 0x0C#8 ∧
    (nextOf (step (((engine 0x12 [0x56#8, 3#8]).setReg 3 0x0C#8).setFlags ⟨true, false, false⟩))).map (·.pc) =
      some 0x14#8 := by decide

/-- V40-8, V40-9, V40-10, V40-13, V40-14, V40-15, V40-16, V44-14: causes and priority. -/
theorem test_faults :
    faultOf (step (engine 0xFF [0x00#8])) = some ⟨.invalidInstruction, 0xFF#8, 0⟩ ∧
    faultOf (step (engine 0xFE [0xA0#8, 0x09#8])) = some ⟨.addressOutOfRange, 0xFE#8, 256⟩ ∧
    faultOf (step (engine 0xFD [0xA0#8, 0#8, 1#8])) = some ⟨.addressOutOfRange, 0xFD#8, 256⟩ ∧
    faultOf (step ((engine 0 [0x45#8, 9#8]).setReg 7 0#8)) = some ⟨.invalidRegisterIndex, 0#8, 9⟩ ∧
    faultOf (step ((engine 0xFE [0x45#8, 0#8]).setReg 7 0#8)) = some ⟨.stackOverflow, 0xFE#8, 0⟩ ∧
    faultOf (step (engine 0xFE [0x45#8, 0#8])) = some ⟨.addressOutOfRange, 0xFE#8, 256⟩ ∧
    faultOf (step (engine 0 [0xA0#8, 8#8, 9#8])) = some ⟨.invalidRegisterIndex, 0#8, 8⟩ ∧
    faultOf (step (((engine 0 [0x46#8, 7#8]).setReg 7 0x80#8).memWrite 0x80#8 0xFF#8)) = some ⟨.stackUnderflow, 0#8, 0⟩ := by
  decide

/-- V44-7: a fault leaves everything else as it was. -/
theorem test_fault_is_precise :
    nextOf (step ((engine 0x10 [0x45#8, 0#8]).setReg 7 0#8)) =
      some { (engine 0x10 [0x45#8, 0#8]).setReg 7 0#8 with running := false, fault := some ⟨.stackOverflow, 0x10#8, 0⟩ } := by
  decide

/-- S6: Reset, Load, Run reach the first instruction. -/
theorem test_boot :
    ((sessionOf (hostOps [.load [0x82#8, 0#8, 8#8, 1#8], .run] Session.start)).bind fun h =>
      (nextOf (step h.engine)).map fun t => (t.reg 0, t.pc)) = some (8#8, 3#8) := by decide

/-- 70_reset_and_hazards.md R163: a 257-byte array is refused. -/
theorem test_load_too_large :
    hostLoad (List.replicate 257 0#8) Session.start = .refused .programTooLarge := by
  rw [hostLoad, if_neg (by decide), if_neg (by decide), if_pos]
  rw [List.length_replicate]
  decide

/-- 70_reset_and_hazards.md R168: the state is read after the run, here one that HLT ended, and not before Run. -/
theorem test_observe :
    ((sessionOf (hostOps [.load [0x01#8], .run] Session.start)).bind fun h => sessionOf (sessionStep h)).map
      (fun h => nextOf (hostObserve h)) = some (some (engine 0 [0x01#8]).halt) ∧
    (sessionOf (hostOps [.load [0x01#8]] Session.start)).map (fun h => nextOf (hostObserve h)) = some none := by decide

/-- S6: the text of 17; the host's view of the output. -/
theorem test_output_text : outputText 17#8 = "17" ∧ outputText 0#8 = "0" := by decide

/-- A placed word runs next, from reset (LDI r0, 8). -/
theorem test_withFetchWord :
    (nextOf (step (State.reset.withFetchWord 24 0x080082))).map (fun t => (t.reg 0, t.pc)) = some (8#8, 3#8) := by decide

/-! ### Witnesses: a concrete state and operands that meet all hypotheses of a statement, one for each clause, at the
boundary of its range -/

theorem witness_DecodeInvertsEncodeExactly : decode [0x54#8, 255#8, 9#8] = .ok (.jmp 255#8, [9#8]) := by decide

theorem witness_OpcodeByteSelectsOneOfSeventeen : 0x00#8 ∉ opcodes ∧ 0xFF#8 ∉ opcodes ∧ 0x57#8 ∉ opcodes := by decide

theorem witness_StepExecutesTheDecodedInstruction :
    (engine 0xFD [0xA0#8, 0#8, 1#8]).running = true ∧
    decode (engine 0xFD [0xA0#8, 0#8, 1#8]).fetchBytes = .ok (.add 0#8 1#8, []) := by decide

theorem witness_EngineStepsExactlyWhileRunning : (engine 0 [0x01#8]).running = true ∧ State.reset.running = false := by decide

theorem witness_InvalidOpcodeFaultsAtOnce :
    (engine 0xFF [0x00#8]).running = true ∧ (engine 0xFF [0x00#8]).memRead (engine 0xFF [0x00#8]).pc ∉ opcodes := by decide

theorem witness_MissingOperandBytesFault :
    (engine 0xFE [0xA0#8]).running = true ∧ (opcodeForm ((engine 0xFE [0xA0#8]).memRead 0xFE#8)).map Form.nops = some 2 ∧
    (engine 0xFE [0xA0#8]).pc.toNat + 2 > 255 ∧
    (opcodeForm ((engine 0xFF [0x54#8]).memRead 0xFF#8)).map Form.nops = some 1 ∧ (engine 0xFF [0x54#8]).pc.toNat + 1 > 255 := by
  decide

theorem witness_FaultChangesOnlyRunningAndRecord :
    (nextOf (step (engine 0 [0#8]))).map (fun t => decide (t.fault ≠ (engine 0 [0#8]).fault)) = some true := by decide

theorem witness_ChecksFailInTheOrderOfTheTable :
    firstFault (engine 254 []) (.add 8#8 0#8) = some (.addressOutOfRange, 256) ∧
    firstFault (engine 253 []) (.add 7#8 8#8) = some (.invalidRegisterIndex, 8) ∧
    firstFault ((engine 254 []).setReg 7 0#8) (.push 7#8) = some (.stackOverflow, 0) ∧
    firstFault ((engine 255 []).setReg 7 255#8) .ret = some (.stackUnderflow, 0) ∧
    firstFault (engine 253 []) (.add 7#8 7#8) = some (.addressOutOfRange, 256) ∧
    firstFault (engine 252 []) (.add 7#8 7#8) = none ∧ firstFault (engine 255 []) .hlt = none := by decide

theorem witness_PrnAppendsItsRegisterToTheOutput :
    (7#8 : Byte).toNat < 8 ∧ (engine 253 []).pc.toNat ≤ 253 ∧ (engine 255 []).pc.toNat = 255 ∧
    (engine 254 []).pc.toNat ≤ 254 ∧ 8 ≤ (8#8 : Byte).toNat ∧ (engine 254 []).pc.toNat = 254 ∧ (7#8 : Byte).toNat ≤ 7 := by
  decide

theorem witness_LdiLoadsTheImmediateByte :
    (7#8 : Byte).toNat < 8 ∧ (engine 252 []).pc.toNat ≤ 252 ∧ 254 ≤ (engine 254 []).pc.toNat ∧
    (engine 253 []).pc.toNat ≤ 253 ∧ 8 ≤ (8#8 : Byte).toNat ∧ (engine 253 []).pc.toNat = 253 ∧ (7#8 : Byte).toNat ≤ 7 := by
  decide

/-- The hypotheses of the two-operand rules (MUL, ADD, AND, OR, XOR), and MUL's result under them. -/
theorem witness_MulKeepsTheLowByteOfTheProduct :
    (7#8 : Byte).toNat < 8 ∧ (engine 252 []).pc.toNat ≤ 252 ∧ 254 ≤ (engine 254 []).pc.toNat ∧
    (engine 253 []).pc.toNat ≤ 253 ∧ 8 ≤ (8#8 : Byte).toNat ∧ (engine 253 []).pc.toNat = 253 ∧ (7#8 : Byte).toNat ≤ 7 ∧
    nextOf (exec (.mul 7#8 0#8) ((engine 252 []).setReg 0 3#8)) = some (wrote ((engine 252 []).setReg 0 3#8) 7 220 255) := by
  decide

theorem witness_AddWrapsModulo256 :
    nextOf (exec (.add 0#8 7#8) ((engine 252 []).setReg 0 13#8)) = some (wrote ((engine 252 []).setReg 0 13#8) 0 1 255) ∧
    faultOf (exec (.add 0#8 8#8) (engine 253 [])) = some ⟨.invalidRegisterIndex, 253#8, 8⟩ := by decide

theorem witness_CmpSetsTheThreeFlagsUnsigned :
    (engine 252 []).pc.toNat ≤ 252 ∧ ((engine 252 []).reg 0).toNat = ((engine 252 []).reg 6).toNat ∧
    ((engine 252 []).reg 0).toNat < ((engine 252 []).reg 7).toNat ∧
    ((engine 252 []).reg 7).toNat > ((engine 252 []).reg 0).toNat ∧ 254 ≤ (engine 254 []).pc.toNat ∧
    (engine 253 []).pc.toNat = 253 := by decide

theorem witness_AndOrXorActBitwise :
    nextOf (exec (.and 7#8 7#8) (engine 252 [])) = some (wrote (engine 252 []) 7 0xF4 255) ∧
    nextOf (exec (.or 0#8 7#8) (engine 252 [])) = some (wrote (engine 252 []) 0 0xF4 255) ∧
    nextOf (exec (.xor 7#8 7#8) (engine 252 [])) = some (wrote (engine 252 []) 7 0 255) := by decide

theorem witness_NotComplementsEightBits :
    nextOf (exec (.not 7#8) (engine 253 [])) = some (wrote (engine 253 []) 7 0x0B 255) ∧
    (engine 254 []).pc.toNat = 254 ∧ (engine 255 []).pc.toNat = 255 ∧ 8 ≤ (8#8 : Byte).toNat := by decide

theorem witness_OnlyCmpWritesFlags :
    (nextOf (exec (.add 0#8 1#8) (engine 0 []))).isSome = true ∧ (nextOf (exec (.mul 0#8 1#8) (engine 0 []))).isSome = true ∧
    (nextOf (step (engine 0 [0xA7#8, 0#8, 1#8]))).map (fun t => decide (t.flags ≠ (engine 0 [0xA7#8, 0#8, 1#8]).flags)) =
      some true := by decide

theorem witness_PushStoresBelowTheStackPointer :
    (7#8 : Byte).toNat < 8 ∧ ((engine 253 []).setReg 7 1#8).pc.toNat ≤ 253 ∧ ((engine 253 []).setReg 7 1#8).sp.toNat ≠ 0 ∧
    (engine 255 []).pc.toNat = 255 ∧ (engine 254 []).pc.toNat ≤ 254 ∧ 8 ≤ (8#8 : Byte).toNat ∧
    ((engine 254 []).setReg 7 0#8).sp.toNat = 0 ∧ (engine 254 []).pc.toNat = 254 ∧ (engine 254 []).sp.toNat ≠ 0 := by decide

theorem witness_PopLoadsAndMovesTheStackPointer :
    ((engine 253 []).setReg 7 254#8).pc.toNat ≤ 253 ∧ (6#8 : Byte).toNat ≠ 7 ∧ ((engine 253 []).setReg 7 254#8).sp.toNat ≠ 255 ∧
    (7#8 : Byte).toNat = 7 ∧ ((engine 0 []).memRead (engine 0 []).sp).toNat ≠ 255 ∧
    (engine 255 []).pc.toNat = 255 ∧ (engine 254 []).pc.toNat = 254 ∧ (6#8 : Byte).toNat < 7 ∧
    ((engine 254 []).setReg 7 255#8).sp.toNat = 255 ∧
    (((engine 254 []).memWrite 0xF4#8 255#8).memRead ((engine 254 []).memWrite 0xF4#8 255#8).sp).toNat = 255 := by decide

theorem witness_PushThenPopRoundTrips :
    (0#8 : Byte).toNat < 7 ∧ (6#8 : Byte).toNat < 7 ∧ ((engine 251 []).setReg 7 1#8).sp.toNat ≠ 0 ∧
    ((engine 251 []).setReg 7 1#8).pc.toNat ≤ 251 := by decide

theorem witness_PushedByteIsFetchedNext :
    (6#8 : Byte).toNat < 7 ∧ ((engine 252 []).setReg 7 255#8).pc.toNat ≤ 253 ∧
    ((engine 252 []).setReg 7 255#8).sp.toNat = ((engine 252 []).setReg 7 255#8).pc.toNat + 3 := by decide

theorem witness_CallPushesTheReturnAddressAndJumps :
    (7#8 : Byte).toNat < 8 ∧ ((engine 253 []).setReg 7 1#8).pc.toNat ≤ 253 ∧ ((engine 253 []).setReg 7 1#8).sp.toNat ≠ 0 ∧
    (nextOf (exec (.call 7#8) ((engine 253 []).setReg 7 1#8))).map (fun t => (t.pc, t.sp, t.memRead 0#8)) =
      some (0#8, 0#8, 255#8) ∧
    faultOf (exec (.call 7#8) ((engine 254 []).setReg 7 0#8)) = some ⟨.stackOverflow, 254#8, 0⟩ := by decide

theorem witness_RetJumpsToThePoppedByte :
    ((engine 255 []).setReg 7 254#8).sp.toNat ≠ 255 ∧ ((engine 255 []).setReg 7 255#8).sp.toNat = 255 := by decide

theorem witness_CallThenRetReturnsAfterTheCall :
    (7#8 : Byte).toNat ≤ 7 ∧ (engine 253 []).pc.toNat ≤ 253 ∧ (engine 253 []).sp.toNat ≠ 0 ∧
    ((nextOf (exec (.call 7#8) (engine 253 []))).bind fun t => (nextOf (exec .ret t)).map fun v => (v.pc, v.sp)) =
      some (255#8, 0xF4#8) := by decide

theorem witness_JmpGoesToItsRegister :
    (7#8 : Byte).toNat < 8 ∧ (engine 254 []).pc.toNat ≤ 254 ∧ (engine 255 []).pc.toNat = 255 ∧ 8 ≤ (8#8 : Byte).toNat := by
  decide

theorem witness_JeqJumpsExactlyWhenEqual :
    ((engine 254 []).setFlags ⟨true, false, false⟩).pc.toNat ≤ 254 ∧
    ((engine 254 []).setFlags ⟨true, false, false⟩).flags.e = true ∧ (engine 253 []).pc.toNat ≤ 253 ∧
    (engine 253 []).flags.e = false ∧ (engine 254 []).pc.toNat = 254 ∧ (engine 255 []).pc.toNat = 255 ∧
    (7#8 : Byte).toNat < 8 ∧ 8 ≤ (8#8 : Byte).toNat := by decide

theorem witness_JneJumpsExactlyWhenNotEqual :
    (!(engine 254 []).flags.e) = true ∧ (!((engine 253 []).setFlags ⟨true, false, false⟩).flags.e) = false ∧
    ((engine 253 []).setFlags ⟨true, false, false⟩).pc.toNat ≤ 253 ∧ (7#8 : Byte).toNat ≤ 7 ∧
    ((engine 254 []).setFlags ⟨true, false, false⟩).pc.toNat = 254 := by decide

theorem witness_CmpThenJumpFollowsEquality :
    (engine 250 []).pc.toNat ≤ 250 ∧ (engine 250 []).reg 0 = (engine 250 []).reg 6 ∧
    (engine 250 []).reg 0 ≠ (engine 250 []).reg 7 ∧ (7#8 : Byte).toNat < 8 := by decide

theorem witness_ProgramCounterFollowsTheTable :
    (nextOf (exec (.push 7#8) (engine 253 []))).isSome = true ∧ firstFault (engine 253 []) (.push 7#8) = none ∧
    fallsThrough (engine 253 []) (.push 7#8) = true ∧ (nextOf (exec (.call 7#8) (engine 253 []))).isSome = true ∧
    firstFault (engine 253 []) (.call 7#8) = none ∧ fallsThrough (engine 253 []) (.call 7#8) = false ∧
    firstFault (engine 254 []) (.push 7#8) = some (.addressOutOfRange, 256) := by decide

theorem witness_InstructionsWriteOnlyTheirRegisters :
    (nextOf (exec (.pop 0#8) (engine 0 []))).isSome = true ∧ writesReg 6 (.pop 0#8) = false := by decide

theorem witness_InstructionsReadOnlyTheirRegisters :
    (nextOf (exec (.pop 0#8) (engine 0 []))).isSome = true ∧ readsReg 0 (.pop 0#8) = false ∧
    writesReg 0 (.pop 0#8) = true ∧ readsReg 6 (.pop 0#8) = false := by decide

theorem witness_OnlyPushAndCallWriteMemory :
    (nextOf (exec (.push 0#8) (engine 0 []))).isSome = true ∧ storeAddr (engine 0 []) (.push 0#8) ≠ some 0xF4#8 ∧
    (nextOf (step (engine 0 [0x50#8, 0#8]))).map
      (fun t => decide (t.memRead 0xF3#8 ≠ (engine 0 [0x50#8, 0#8]).memRead 0xF3#8)) = some true := by decide

theorem witness_OutputGrowsOnlyByPrn :
    (nextOf (step (engine 0 [0x47#8, 7#8]))).map (·.out) = some [0xF4#8] ∧
    (nextOf (step (engine 0 [0x01#8]))).map (·.out) = some [] := by decide

/-- Two states that differ in L, G, the fault record and the output. -/
theorem witness_UnreadStateNeverInfluencesARun :
    SameToPrograms (engine 0 [0x47#8, 0#8])
      { engine 0 [0x47#8, 0#8] with flags := ⟨false, true, true⟩, fault := some ⟨.stackOverflow, 9#8, 0⟩, out := [1#8] } :=
  ⟨rfl, rfl, rfl, rfl, rfl⟩

/-- A running state with memory written and a flag set meets the invariant, and its step answers a next state. -/
theorem witness_EveryStepKeepsTheInvariant :
    Inv ((engine 0 [0x45#8, 7#8]).setFlags ⟨true, false, false⟩) ∧
    (nextOf (step ((engine 0 [0x45#8, 7#8]).setFlags ⟨true, false, false⟩))).isSome = true :=
  ⟨⟨by decide, by decide, fun _ h => nomatch h⟩, by decide⟩

/-- A stopped engine with a true fault record: what V40-1 leaves. -/
theorem witness_RecordedFaultIsFinal :
    Inv ((engine 0 [0x00#8]).raise .invalidInstruction 0) ∧
    ((engine 0 [0x00#8]).raise .invalidInstruction 0).fault = some ⟨.invalidInstruction, 0#8, 0⟩ := by
  refine ⟨⟨by decide, by decide, ?_⟩, by decide⟩
  intro r h
  obtain rfl : _ = r := Option.some.inj h
  exact ⟨rfl, rfl, rfl, rfl⟩

theorem witness_RunEndsOnlyByHltOrFault :
    (engine 0 [0x01#8]).running = true ∧ (nextOf (step (engine 0 [0x01#8]))).map (·.running) = some false ∧
    (nextOf (step (engine 0 [0x00#8]))).map (·.running) = some false := by decide

theorem witness_CanonicalMemoriesReadingAlikeAreEqual :
    Memory.wf [(0, 1#8), (255, 2#8)] = true ∧ Memory.wf [(255, 2#8), (0, 1#8)] = false ∧ Memory.wf [(3, 0#8)] = false ∧
    Memory.wf [(256, 1#8)] = false ∧ Memory.put (Memory.put [] 255 2#8) 0 1#8 = [(0, 1#8), (255, 2#8)] ∧
    Memory.put [(7, 1#8)] 7 0#8 = [] := by decide

theorem witness_LoadCopiesFromAddressZero :
    Session.start.engine.running = false ∧ Session.start.phase ≠ .started ∧ (List.replicate 257 (0#8 : Byte)).length > 256 ∧
    (List.replicate 256 (1#8 : Byte)).length ≤ 256 := by
  rw [List.length_replicate, List.length_replicate]; decide

theorem witness_LoadedProgramStartsAtItsFirstByte : (encode (.jmp 9#8) ++ List.replicate 254 (1#8 : Byte)).length ≤ 256 := by
  rw [List.length_append, List.length_replicate]; decide

theorem witness_RunningOffTheEndFaults :
    ([0x45#8, 0#8] : List Byte).length ≤ 255 ∧
    (sessionOf (hostOps [.load [0x45#8, 0#8], .run] Session.start)).map
      (fun h => ((h.engine.setPc 2#8).running, (h.engine.setPc 2#8).pc.toNat)) = some (true, 2) := by decide

theorem witness_HostSequenceIsResetLoadRun :
    (⟨engine 0 [], .started⟩ : Session).engine.running = true ∧ Session.start.engine.running = false ∧
    Session.start.phase = .fresh ∧ (⟨State.reset, .loaded⟩ : Session).phase = .loaded ∧
    (⟨State.reset, .started⟩ : Session).phase = .started ∧ (⟨State.reset, .started⟩ : Session).engine.running = false := by
  decide

theorem witness_PlacedWordRunsNext :
    (engine 253 []).pc.toNat ≤ 253 ∧ decodeTableWord 24 0x0100A0 = some (.add 0#8 1#8) := by decide

end Sys2Proof.Tests
end

section
/-! SUPPORT. One equation for the meanings of all 17 instructions. -/

namespace Sys2Proof.Proofs
open Sys2Proof Sys2Proof.Machine

/-! ### The meaning of an instruction: its checks in order, then the state it completes in -/

/-- The register an operand byte names; a byte above 7 names none, its instruction faults, and 0 stands for it. -/
def operandReg (a : Byte) : RegIdx := if h : a.toNat < 8 then ⟨a.toNat, h⟩ else 0

theorem operandReg_of_lt {a : Byte} (h : a.toNat < 8) : operandReg a = ⟨a.toNat, h⟩ := dif_pos h

theorem operandReg_eq_of_names {a : Byte} {r : RegIdx} (h : names a r = true) : operandReg a = r := by
  have h : a.toNat = r.val := of_decide_eq_true h
  rw [operandReg_of_lt (h ▸ r.isLt)]
  exact Fin.ext h

theorem operandReg_ne_of_names {a : Byte} {r : RegIdx} (ha : a.toNat ≤ 7) (h : names a r = false) : operandReg a ≠ r := by
  rw [operandReg_of_lt (by omega)]
  exact fun hr => of_decide_eq_false h (congrArg Fin.val hr)

theorem operandReg_eq_spIndex (a : Byte) : operandReg a = Config.spIndex ↔ a.toNat = 7 := by
  unfold operandReg
  split
  · exact Fin.ext_iff
  · exact iff_of_false (by decide) (by omega)

/-- The state after a conditional jump through register `r`. -/
def jumped (s : State) (taken : Bool) (r : RegIdx) : State := if taken then s.setPc (s.reg r) else s.advance 2

/-- The state in which instruction `i` completes, every check of 40_execution_cycle.md R68 having passed. -/
def completed (s : State) : Instr → State
  | .hlt => s.halt
  | .ldi a imm8 => (s.setReg (operandReg a) imm8).advance 3
  | .prn a => (s.output (s.reg (operandReg a))).advance 2
  | .mul a b => (s.alu .mult (operandReg a) (operandReg b)).advance 3
  | .add a b => (s.alu .add (operandReg a) (operandReg b)).advance 3
  | .cmp a b => (s.alu .cmp (operandReg a) (operandReg b)).advance 3
  | .and a b => (s.alu .and (operandReg a) (operandReg b)).advance 3
  | .or a b => (s.alu .or (operandReg a) (operandReg b)).advance 3
  | .xor a b => (s.alu .xor (operandReg a) (operandReg b)).advance 3
  | .not a => (s.alu .not (operandReg a) (operandReg a)).advance 2
  | .push a => (s.push fun t => t.reg (operandReg a)).advance 2
  | .pop a => (s.setReg (operandReg a) s.popValue).incSp.advance 2
  | .call a => (s.push fun _ => s.pc + 2).setPc ((s.push fun _ => s.pc + 2).reg (operandReg a))
  | .ret => s.incSp.setPc s.popValue
  | .jmp a => s.setPc (s.reg (operandReg a))
  | .jeq a => jumped s s.flags.e (operandReg a)
  | .jne a => jumped s (!s.flags.e) (operandReg a)

/-- `x` behind a check: the fault of the check, or `x` when it raises none. -/
def guarded (check : Option (Fault × Nat)) (x : Attempt State) : Attempt State := check.elim x .error

/-- An address check, of stage 3 or 6: the fault of an exact sum above 255. -/
def addressCheck (sum : Nat) : Option (Fault × Nat) := if sum > 255 then some (.addressOutOfRange, 256) else none

/-- An index check, of stage 4a or 4b. -/
def indexCheck (a : Byte) : Option (Fault × Nat) := if a.toNat > 7 then some (.invalidRegisterIndex, a.toNat) else none

/-- The stack check of an instruction, of stage 5a or 5b. -/
def stackCheck (s : State) (i : Instr) : Option (Fault × Nat) := (stackFault s i).map (·, 0)

/-- The successor check of an instruction, stage 6. -/
def successorCheck (s : State) (i : Instr) : Option (Fault × Nat) :=
  if needsSuccessor s i then addressCheck (s.pc.toNat + instrLength i) else none

/-- The checks of an instruction in the order of the table of 40_execution_cycle.md R68. -/
def checks (s : State) (i : Instr) : List (Option (Fault × Nat)) :=
  addressCheck (s.pc.toNat + instrLength i - 1) ::
    ((registerOperands i).map indexCheck ++ [stackCheck s i, successorCheck s i])

/-- The first check that raises a fault decides the outcome (40_execution_cycle.md R66, R69). -/
theorem attempt_guarded (s t : State) (cs : List (Option (Fault × Nat))) :
    s.attempt (cs.foldr guarded (.ok t)) = .next ((cs.findSome? id).elim t fun e => s.raise e.1 e.2) := by
  induction cs with
  | nil => rfl
  | cons c cs ih =>
    cases c with
    | none => exact ih
    | some e => rfl

theorem findSome?_indexCheck (as : List Byte) :
    as.findSome? indexCheck =
      (as.find? fun a => decide (a.toNat > 7)).map fun a => (.invalidRegisterIndex, a.toNat) := by
  induction as with
  | nil => rfl
  | cons a as ih => by_cases h : a.toNat > 7 <;> simp_all [indexCheck]

/-- `firstFault` is the first of the checks that raises a fault. -/
theorem firstFault_eq_findSome? (s : State) (i : Instr) : firstFault s i = (checks s i).findSome? id := by
  simp only [firstFault, checks, List.findSome?_cons, List.findSome?_append, List.findSome?_map,
    Function.id_comp, findSome?_indexCheck, addressCheck, id]
  split
  · rfl
  · cases (registerOperands i).find? fun a => decide (a.toNat > 7) with
    | some a => rfl
    | none =>
      simp only [stackCheck, successorCheck, addressCheck]
      cases stackFault s i with
      | some f => rfl
      | none =>
        by_cases hsum : s.pc.toNat + instrLength i > 255 <;> cases needsSuccessor s i <;> simp [hsum]

theorem operandsInMemory_bind (s : State) (len : Nat) (f : Unit → Attempt State) :
    (operandsInMemory s len >>= f) = guarded (addressCheck (s.pc.toNat + len - 1)) (f ()) := by
  simp only [operandsInMemory, addressCheck]
  split <;> rfl

theorem successorInMemory_bind (s : State) (len : Nat) (f : Unit → Attempt State) :
    (successorInMemory s len >>= f) = guarded (addressCheck (s.pc.toNat + len)) (f ()) := by
  simp only [successorInMemory, addressCheck]
  split <;> rfl

theorem regIndex_bind (a : Byte) (f : RegIdx → Attempt State) :
    (regIndex a >>= f) = guarded (indexCheck a) (f (operandReg a)) := by
  by_cases h : a.toNat < 8
  · rw [regIndex_of_lt h, indexCheck, if_neg (by omega), operandReg_of_lt h]
    rfl
  · rw [regIndex_of_ge (by omega), indexCheck, if_pos (by omega)]
    rfl

theorem pushRoom_bind (s : State) (f : Unit → Attempt State) :
    (pushRoom s >>= f) = guarded ((if s.sp.toNat = 0 then some .stackOverflow else none).map (·, 0)) (f ()) := by
  have : s.sp = 0x00#8 ↔ s.sp.toNat = 0 := BitVec.toNat_eq
  simp only [pushRoom, this]
  split <;> rfl

theorem popRoom_bind (v : Byte) (f : Unit → Attempt State) :
    (popRoom v >>= f) = guarded ((if v.toNat = 255 then some .stackUnderflow else none).map (·, 0)) (f ()) := by
  have : v = 0xFF#8 ↔ v.toNat = 255 := BitVec.toNat_eq
  simp only [popRoom, this]
  split <;> rfl

theorem jumpIf_eq_guarded (taken : Bool) (a : Byte) (s : State) :
    jumpIf taken a s = s.attempt (guarded (addressCheck (s.pc.toNat + 2 - 1)) (guarded (indexCheck a)
      (guarded (if !taken then addressCheck (s.pc.toNat + 2) else none)
        (.ok (jumped s taken (operandReg a)))))) := by
  simp only [jumpIf, operandsInMemory_bind, regIndex_bind, successorInMemory_bind]
  cases taken <;> rfl

/-- Every meaning is the table of checks in front of the completed state. -/
theorem exec_eq_guarded (i : Instr) (s : State) :
    exec i s = s.attempt ((checks s i).foldr guarded (.ok (completed s i))) := by
  cases i with
  | hlt =>
    have : addressCheck s.pc.toNat = none := if_neg (by have := s.pc.isLt; omega)
    simp only [exec, execHlt, checks, instrLength, operandBytes, List.length_nil, Nat.add_zero, Nat.add_sub_cancel, this]
    rfl
  | ldi a imm8 =>
    simp only [exec, execLdi, operandsInMemory_bind, regIndex_bind, successorInMemory_bind]
    rfl
  | prn a | not a =>
    simp only [exec, execPrn, execNot, operandsInMemory_bind, regIndex_bind, successorInMemory_bind]
    rfl
  | mul a b | add a b | cmp a b | and a b | or a b | xor a b =>
    simp only [exec, execMul, execAdd, execCmp, execAnd, execOr, execXor, aluTwoOperand, operandsInMemory_bind,
      regIndex_bind, successorInMemory_bind]
    rfl
  | push a | call a =>
    simp only [exec, execPush, execCall, operandsInMemory_bind, regIndex_bind, successorInMemory_bind, pushRoom_bind]
    rfl
  | pop a =>
    have : stackCheck s (.pop a) =
        (if (popIncrementee s (operandReg a)).toNat = 255 then some .stackUnderflow else none).map (·, 0) := by
      simp only [stackCheck, stackFault, popIncrementee, operandReg_eq_spIndex, State.popValue]
      split <;> rfl
    simp only [exec, execPop, operandsInMemory_bind, regIndex_bind, successorInMemory_bind, popRoom_bind, checks, this]
    rfl
  | ret =>
    have : addressCheck s.pc.toNat = none := if_neg (by have := s.pc.isLt; omega)
    simp only [exec, execRet, checks, instrLength, operandBytes, List.length_nil, Nat.add_zero, Nat.add_sub_cancel, this,
      popRoom_bind]
    rfl
  | jmp a | jeq a | jne a =>
    simp only [exec, execJmp, execJeq, execJne, jumpIf_eq_guarded, Bool.not_not]
    rfl

/-- Everything an instruction can do: the fault of the first failing check, or the completed state. -/
theorem exec_eq (i : Instr) (s : State) :
    exec i s = .next ((firstFault s i).elim (completed s i) fun e => s.raise e.1 e.2) := by
  rw [exec_eq_guarded, attempt_guarded, firstFault_eq_findSome?]

end Sys2Proof.Proofs

end

section
/-! SUPPORT. What the decoder makes of the bytes at the program counter. -/

namespace Sys2Proof.Proofs
open Sys2Proof Sys2Proof.Machine

/-- Every instruction a format makes has `op` as its opcode byte and the format's operand bytes. -/
def Encodes (op : Byte) : Form → Prop
  | .f0 i => opcodeByte i = op ∧ operandBytes i = []
  | .f1 mk => ∀ a, opcodeByte (mk a) = op ∧ operandBytes (mk a) = [a]
  | .f2 mk => ∀ a b, opcodeByte (mk a b) = op ∧ operandBytes (mk a b) = [a, b]

/-- The dispatch table of 30_encoding.md R54 agrees with the encoder, row by row. -/
theorem encodes_of_opcodeForm {op : Byte} {f : Form} (h : opcodeForm op = some f) : Encodes op f := by
  unfold opcodeForm at h
  split at h <;> cases h
  all_goals simp [Encodes, opcodeByte, operandBytes, BitVec.toNat_eq, *]

/-- Filling an opcode's format takes the operand bytes of the instruction it gives, as many as the format has. -/
theorem fill_eq_ok {op : Byte} {f : Form} {bs rest : List Byte} {i : Instr} (hf : opcodeForm op = some f)
    (h : f.fill bs = .ok (i, rest)) :
    opcodeByte i = op ∧ bs = operandBytes i ++ rest ∧ (operandBytes i).length = f.nops := by
  have henc := encodes_of_opcodeForm hf
  unfold Form.fill at h
  split at h <;> cases h <;> simp_all [Encodes, Form.nops]

theorem fill_eq_error {f : Form} {bs : List Byte} {e : DecodeError} (h : f.fill bs = .error e) :
    e = .missingBytes ∧ bs.length < f.nops := by
  unfold Form.fill at h
  split at h <;> cases h <;> exact ⟨rfl, by simp [Form.nops]⟩

theorem fetchOperands_length (s : State) (k n : Nat) : (s.fetchOperands k n).length = min n (256 - k) := by
  induction n generalizing k with
  | zero => simp [State.fetchOperands]
  | succ n ih =>
    unfold State.fetchOperands
    split
    · rw [List.length_cons, ih]
      omega
    · simp
      omega

/-- Fetched operand byte `j` is the cell `j` after the first one, which exists (20_memory.md R34, R35). -/
theorem fetchOperands_getElem? {s : State} {k n j : Nat} {a : Byte} (h : (s.fetchOperands k n)[j]? = some a) :
    k + j ≤ 255 ∧ a = s.memRead (BitVec.ofNat 8 (k + j)) := by
  induction n generalizing k j with
  | zero => simp [State.fetchOperands] at h
  | succ n ih =>
    unfold State.fetchOperands at h
    split at h
    · next hk =>
      cases j with
      | zero => exact ⟨hk, by simpa using h.symm⟩
      | succ j => exact Nat.add_right_comm k 1 j ▸ ih (k := k + 1) (j := j) h
    · simp at h

/-- What the bytes at the program counter decode to: nothing is left over, and the operand bytes are the fetched ones. -/
theorem decode_fetchBytes_ok {s : State} {i : Instr} {rest : List Byte} (h : decode s.fetchBytes = .ok (i, rest)) :
    rest = [] ∧ opcodeByte i = s.memRead s.pc ∧
      operandBytes i = s.fetchOperands (s.pc.toNat + 1) (operandBytes i).length := by
  unfold State.fetchBytes decode at h
  cases hf : opcodeForm (s.memRead s.pc) with
  | none => simp [hf] at h
  | some f =>
    simp only [hf] at h
    obtain ⟨hop, hbs, hlen⟩ := fill_eq_ok hf h
    have hrest : rest = [] := by
      have := congrArg List.length hbs
      rw [List.length_append, fetchOperands_length, hlen] at this
      exact List.eq_nil_of_length_eq_zero (by omega)
    exact ⟨hrest, hop, by simpa [hrest, hlen] using hbs.symm⟩

/-- The bytes at the program counter fail to decode by their opcode, or for want of an operand byte. -/
theorem decode_fetchBytes_error {s : State} {e : DecodeError} (h : decode s.fetchBytes = .error e) :
    (e = .invalidOpcode (s.memRead s.pc) ∧ opcodeForm (s.memRead s.pc) = none) ∨
      (e = .missingBytes ∧ ∃ f, opcodeForm (s.memRead s.pc) = some f ∧ 255 < s.pc.toNat + f.nops) := by
  unfold State.fetchBytes decode at h
  cases hf : opcodeForm (s.memRead s.pc) with
  | none => exact .inl ⟨by simpa [hf] using h.symm, rfl⟩
  | some f =>
    simp only [hf] at h
    obtain ⟨he, hlen⟩ := fill_eq_error h
    rw [fetchOperands_length] at hlen
    exact .inr ⟨he, f, rfl, by omega⟩

end Sys2Proof.Proofs

end

section
/-! SUPPORT. What an instruction and a step can do, and what a completed instruction leaves unchanged. -/

namespace Sys2Proof.Proofs
open Sys2Proof Sys2Proof.Machine

/-! ### Inversion -/

/-- `exec_eq` read from its answer: a fault taken on the old state, or the completed state with no check failing. -/
theorem exec_next_cases {i : Instr} {s t : State} (h : exec i s = .next t) :
    (∃ f n, firstFault s i = some (f, n) ∧ t = s.raise f n) ∨ (firstFault s i = none ∧ t = completed s i) := by
  rw [exec_eq] at h
  cases hf : firstFault s i with
  | none => exact .inr ⟨rfl, by simpa [hf] using h.symm⟩
  | some e => exact .inl ⟨e.1, e.2, rfl, by simpa [hf] using h.symm⟩

/-- Everything a step can do: nothing while stopped, the fault of bytes that do not decode, or the decoded instruction. -/
theorem step_next_cases {s t : State} (h : step s = .next t) :
    (s.running = false ∧ t = s) ∨
    (s.running = true ∧ ∃ e, decode s.fetchBytes = .error e ∧ t = s.raiseDecode e) ∨
    (s.running = true ∧ ∃ i, decode s.fetchBytes = .ok (i, []) ∧ exec i s = .next t) := by
  unfold step at h
  split at h
  · next hrun =>
    split at h
    · next i rest hd =>
      obtain ⟨rfl, -, -⟩ := decode_fetchBytes_ok hd
      exact .inr (.inr ⟨hrun, i, hd, h⟩)
    · next e hd => exact .inr (.inl ⟨hrun, e, hd, by cases h; rfl⟩)
  · next hrun => exact .inl ⟨by simpa using hrun, by cases h; rfl⟩

/-- When no check fails, every register operand names a register (30_encoding.md R52). -/
theorem registerOperands_le_of_firstFault {s : State} {i : Instr} (h : firstFault s i = none) :
    ∀ a ∈ registerOperands i, a.toNat ≤ 7 := by
  rw [firstFault_eq_findSome?] at h
  intro a ha
  have : indexCheck a = none :=
    List.findSome?_eq_none_iff.mp h _ (List.mem_cons_of_mem _ (List.mem_append_left _ (List.mem_map_of_mem ha)))
  by_contra hgt
  simp [indexCheck, Nat.lt_of_not_le hgt] at this

/-- The state a fault of stage 2 or 3 leaves is, like every fault's, a `raise`. -/
theorem raiseDecode_eq_raise (s : State) (e : DecodeError) : ∃ f n, s.raiseDecode e = s.raise f n := by
  cases e with
  | invalidOpcode op => exact ⟨_, _, rfl⟩
  | missingBytes => exact ⟨_, _, rfl⟩

/-! ### What a completed instruction leaves unchanged -/

/-- What an instruction that completes prints. -/
def printed (s : State) : Instr → List Byte
  | .prn a => [s.reg (operandReg a)]
  | _ => []

section
variable (s : State) (taken : Bool) (r : RegIdx)

@[simp] theorem jumped_regs : (jumped s taken r).regs = s.regs := by cases taken <;> rfl
@[simp] theorem jumped_flags : (jumped s taken r).flags = s.flags := by cases taken <;> rfl
@[simp] theorem jumped_running : (jumped s taken r).running = s.running := by cases taken <;> rfl
@[simp] theorem jumped_fault : (jumped s taken r).fault = s.fault := by cases taken <;> rfl
@[simp] theorem jumped_mem : (jumped s taken r).mem = s.mem := by cases taken <;> rfl
@[simp] theorem jumped_out : (jumped s taken r).out = s.out := by cases taken <;> rfl

end

theorem completed_out (s : State) (i : Instr) : (completed s i).out = s.out ++ printed s i := by
  cases i with
  | prn a => rfl
  | _ => simp [completed, printed]

theorem completed_fault (s : State) (i : Instr) : (completed s i).fault = s.fault := by
  cases i <;> simp [completed]

theorem completed_mem_wf {s : State} (h : Memory.wf s.mem = true) (i : Instr) :
    Memory.wf (completed s i).mem = true := by
  cases i with
  | push a | call a => simpa [completed] using State.push_wf _ h
  | _ => simpa [completed]

theorem compareFlags_atMostOne (u v : Byte) : (compareFlags u v).atMostOne = true := by
  simp [compareFlags, Flags.atMostOne]
  omega

theorem completed_flags_atMostOne {s : State} (h : s.flags.atMostOne = true) (i : Instr) :
    (completed s i).flags.atMostOne = true := by
  cases i with
  | cmp a b => exact compareFlags_atMostOne _ _
  | _ => simpa [completed, State.alu_flags]

/-- A register that an instruction does not write, its operands being valid, is as before. -/
theorem completed_reg {s : State} {i : Instr} {r : RegIdx} (hvalid : ∀ a ∈ registerOperands i, a.toNat ≤ 7)
    (h : writesReg r i = false) : (completed s i).reg r = s.reg r := by
  cases i with
  | ldi a imm8 => exact State.setReg_reg_other _ _ _ _ (operandReg_ne_of_names (hvalid a (by simp [registerOperands])) h)
  | mul a b | add a b | and a b | or a b | xor a b | not a =>
    exact State.alu_reg _ _ _ _ _ (.inl (operandReg_ne_of_names (hvalid a (by simp [registerOperands])) h))
  | cmp a b => rfl
  | push a | call a => simp [completed, State.push_reg, Ne.symm (of_decide_eq_false h)]
  | pop a =>
    obtain ⟨ha, hsp⟩ := Bool.or_eq_false_iff.mp h
    have ha := operandReg_ne_of_names (hvalid a (by simp [registerOperands])) ha
    have hsp := Ne.symm (of_decide_eq_false hsp)
    simp [completed, State.incSp_reg, State.setReg_reg, ha, hsp]
  | ret => exact (State.incSp_reg _ _).trans (if_neg (Ne.symm (of_decide_eq_false h)))
  | jeq a | jne a => simp [completed, State.reg]
  | hlt | prn a | jmp a => rfl

end Sys2Proof.Proofs

end

section
/-! SUPPORT. A register an instruction does not read. -/

namespace Sys2Proof.Proofs
open Sys2Proof Sys2Proof.Machine

/-! ### What the checks depend on -/

theorem needsSuccessor_congr {s t : State} (h : t.flags.e = s.flags.e) (i : Instr) :
    needsSuccessor t i = needsSuccessor s i := by
  cases i <;> simp [needsSuccessor, fallsThrough, h]

/-- The checks look at the program counter, E, and what the stack bounds look at. -/
theorem firstFault_congr {s t : State} {i : Instr} (hpc : t.pc = s.pc) (he : t.flags.e = s.flags.e)
    (hstack : stackFault t i = stackFault s i) : firstFault t i = firstFault s i := by
  simp only [firstFault, hpc, hstack, needsSuccessor_congr he]

/-! ### A register put in beforehand -/

section
variable {s : State} {i j r : RegIdx} {u v : Byte}

theorem setReg_setReg_same : (s.setReg i u).setReg i v = s.setReg i v := by simp [State.setReg]

theorem setReg_comm (h : i ≠ j) : (s.setReg i u).setReg j v = (s.setReg j v).setReg i u := by
  simp only [State.setReg]
  rw [Vector.set_comm _ _ (fun hij => h (Fin.ext hij))]

theorem sp_setReg (h : r ≠ Config.spIndex) : (s.setReg r v).sp = s.sp := State.setReg_reg_other _ _ _ _ h

theorem popValue_setReg (h : r ≠ Config.spIndex) : (s.setReg r v).popValue = s.popValue := by
  simp [State.popValue, sp_setReg h]

theorem incSp_setReg (h : r ≠ Config.spIndex) : (s.setReg r v).incSp = s.incSp.setReg r v := by
  rw [State.incSp, sp_setReg h, setReg_comm h]
  rfl

theorem decSp_setReg (h : r ≠ Config.spIndex) : (s.setReg r v).decSp = s.decSp.setReg r v := by
  rw [State.decSp, State.pushAddr, sp_setReg h, setReg_comm h]
  rfl

theorem push_setReg {value : State → Byte} (h : r ≠ Config.spIndex)
    (hvalue : value (s.decSp.setReg r v) = value s.decSp) : (s.setReg r v).push value = (s.push value).setReg r v := by
  rw [State.push, decSp_setReg h, hvalue, State.pushAddr, sp_setReg h]
  rfl

theorem alu_setReg {op : AluOp} (hi : i ≠ r) (hj : j ≠ r) :
    (s.setReg r v).alu op i j = (s.alu op i j).setReg r v := by
  have hi' := State.setReg_reg_other s r i v hi.symm
  have hj' := State.setReg_reg_other s r j v hj.symm
  cases op with
  | cmp => simp only [State.alu, hi', hj']; rfl
  | _ => simp only [State.alu, hi', hj', setReg_comm hi]

theorem jumped_setReg {taken : Bool} (h : i ≠ r) : jumped (s.setReg r v) taken i = (jumped s taken i).setReg r v := by
  rw [jumped, State.setReg_reg_other _ _ _ _ h.symm]
  cases taken <;> rfl

end

theorem stackFault_setReg {s : State} {i : Instr} {r : RegIdx} (v : Byte) (h : readsReg r i = false) :
    stackFault (s.setReg r v) i = stackFault s i := by
  cases i with
  | push a | call a =>
    obtain ⟨-, hr⟩ := Bool.or_eq_false_iff.mp h
    simp only [stackFault, sp_setReg (of_decide_eq_false hr)]
  | pop a | ret => simp [stackFault, sp_setReg (of_decide_eq_false h)]
  | _ => rfl

/-- A register an instruction does not read is carried along to the completed state, or overwritten there. -/
theorem completed_setReg {s : State} {i : Instr} {r : RegIdx} (v : Byte)
    (hvalid : ∀ a ∈ registerOperands i, a.toNat ≤ 7) (h : readsReg r i = false) :
    completed (s.setReg r v) i = (completed s i).setReg r v ∨
      (writesReg r i = true ∧ completed (s.setReg r v) i = completed s i) := by
  have other : ∀ a ∈ registerOperands i, names a r = false → operandReg a ≠ r := fun a ha =>
    operandReg_ne_of_names (hvalid a ha)
  cases i with
  | hlt => exact .inl rfl
  | ldi a imm8 =>
    cases hw : names a r with
    | true =>
      refine .inr ⟨hw, ?_⟩
      simp only [completed, operandReg_eq_of_names hw, setReg_setReg_same]
    | false =>
      refine .inl ?_
      simp only [completed, setReg_comm (other a (by simp [registerOperands]) hw).symm]
      rfl
  | prn a =>
    have ha := other a (by simp [registerOperands]) h
    refine .inl ?_
    simp only [completed, State.setReg_reg_other _ _ _ _ ha.symm]
    rfl
  | mul a b | add a b | cmp a b | and a b | or a b | xor a b =>
    obtain ⟨ha, hb⟩ := Bool.or_eq_false_iff.mp h
    have ha := other a (by simp [registerOperands]) ha
    have hb := other b (by simp [registerOperands]) hb
    exact .inl (by simp only [completed, alu_setReg ha hb]; rfl)
  | not a =>
    have ha := other a (by simp [registerOperands]) h
    exact .inl (by simp only [completed, alu_setReg ha ha]; rfl)
  | push a =>
    obtain ⟨ha, hsp⟩ := Bool.or_eq_false_iff.mp h
    have ha := other a (by simp [registerOperands]) ha
    refine .inl ?_
    simp only [completed]
    rw [push_setReg (of_decide_eq_false hsp) (State.setReg_reg_other _ _ _ _ ha.symm)]
    rfl
  | pop a =>
    have hsp : r ≠ Config.spIndex := of_decide_eq_false h
    cases hw : names a r with
    | true =>
      refine .inr ⟨by simp [writesReg, hw], ?_⟩
      simp only [completed, operandReg_eq_of_names hw, setReg_setReg_same, popValue_setReg hsp]
    | false =>
      refine .inl ?_
      simp only [completed, popValue_setReg hsp, setReg_comm (other a (by simp [registerOperands]) hw).symm,
        incSp_setReg hsp]
      rfl
  | call a =>
    obtain ⟨ha, hsp⟩ := Bool.or_eq_false_iff.mp h
    have ha := other a (by simp [registerOperands]) ha
    refine .inl ?_
    simp only [completed, State.setReg_pc]
    rw [push_setReg (of_decide_eq_false hsp) rfl, State.setReg_reg_other _ _ _ _ ha.symm]
    rfl
  | ret =>
    have hsp : r ≠ Config.spIndex := of_decide_eq_false h
    exact .inl (by simp only [completed, incSp_setReg hsp, popValue_setReg hsp]; rfl)
  | jmp a =>
    have ha := other a (by simp [registerOperands]) h
    exact .inl (by simp only [completed, State.setReg_reg_other _ _ _ _ ha.symm]; rfl)
  | jeq a | jne a =>
    exact .inl (jumped_setReg (other a (by simp [registerOperands]) h))

end Sys2Proof.Proofs

end

section
/-! The registers an instruction writes and reads, and the output: O33, O34, O36. -/

namespace Sys2Proof.Proofs
open Sys2Proof Sys2Proof.Machine

/-- Settles O33: a fault writes no register, and a completed instruction only those of its column. -/
theorem instructionsWriteOnlyTheirRegisters : Obligations.InstructionsWriteOnlyTheirRegisters := by
  intro i s t r h hw
  obtain ⟨f, n, -, rfl⟩ | ⟨hnone, rfl⟩ := exec_next_cases h
  · rfl
  · exact completed_reg (registerOperands_le_of_firstFault hnone) hw

/-- Settles O36: of all that a step can do, only a completed PRN prints. -/
theorem outputGrowsOnlyByPrn : Obligations.OutputGrowsOnlyByPrn := by
  intro s t h
  obtain ⟨-, rfl⟩ | ⟨-, e, -, rfl⟩ | ⟨-, i, hd, hi⟩ := step_next_cases h
  · exact .inl rfl
  · obtain ⟨f, n, he⟩ := raiseDecode_eq_raise s e
    exact .inl (by rw [he, State.raise_out])
  · obtain ⟨f, n, -, rfl⟩ | ⟨hnone, rfl⟩ := exec_next_cases hi
    · exact .inl rfl
    · have hout := completed_out s i
      cases i with
      | prn a =>
        have ha : a.toNat ≤ 7 := registerOperands_le_of_firstFault hnone a (by simp [registerOperands])
        exact .inr ⟨a, Nat.lt_succ_of_le ha, hd, by rw [hout, printed, operandReg_of_lt]⟩
      | _ => exact .inl (by simpa [printed] using hout)

/-- Settles O34: the register changes neither the first failing check nor, but for its own value, the completed state. -/
theorem instructionsReadOnlyTheirRegisters : Obligations.InstructionsReadOnlyTheirRegisters := by
  intro i s t r v h hr
  have hsame : firstFault (s.setReg r v) i = firstFault s i := firstFault_congr rfl rfl (stackFault_setReg v hr)
  rw [exec_eq, hsame]
  obtain ⟨f, n, hf, rfl⟩ | ⟨hf, rfl⟩ := exec_next_cases h
  · rw [hf]
    exact .inl rfl
  · rw [hf, Option.elim_none]
    obtain hc | ⟨hw, hc⟩ := completed_setReg v (registerOperands_le_of_firstFault hf) hr
    · exact .inl (congrArg _ hc)
    · exact .inr ⟨hw, congrArg _ hc⟩

end Sys2Proof.Proofs

end

section
/-! State that programs do not read: O37. -/

namespace Sys2Proof.Machine

/-! ### State that programs do not read -/

section
variable {s s' : State} (h : SameToPrograms s s')
include h

theorem SameToPrograms.reg (r : RegIdx) : s'.reg r = s.reg r := by simp only [State.reg, h.regs]

theorem SameToPrograms.sp : s'.sp = s.sp := h.reg _

theorem SameToPrograms.memRead (k : Addr) : s'.memRead k = s.memRead k := by simp only [State.memRead, h.mem]

theorem SameToPrograms.popValue : s'.popValue = s.popValue := by simp only [State.popValue, h.sp, h.memRead]

theorem SameToPrograms.pushAddr : s'.pushAddr = s.pushAddr := by simp only [State.pushAddr, h.sp]

theorem SameToPrograms.setReg (r : RegIdx) (v : Byte) : SameToPrograms (s.setReg r v) (s'.setReg r v) :=
  { h with regs := congrArg (·.set r v) h.regs }

theorem SameToPrograms.setPc (p : Addr) : SameToPrograms (s.setPc p) (s'.setPc p) := { h with pc := rfl }

theorem SameToPrograms.advance (n : Nat) : SameToPrograms (s.advance n) (s'.advance n) :=
  { h with pc := congrArg (· + BitVec.ofNat 8 n) h.pc }

theorem SameToPrograms.setFlags (f : Flags) : SameToPrograms (s.setFlags f) (s'.setFlags f) := { h with e := rfl }

theorem SameToPrograms.output (v : Byte) : SameToPrograms (s.output v) (s'.output v) := { h with }

theorem SameToPrograms.halt : SameToPrograms s.halt s'.halt := { h with running := rfl }

theorem SameToPrograms.raise (f : Fault) (n : Nat) : SameToPrograms (s.raise f n) (s'.raise f n) :=
  { h with running := rfl }

theorem SameToPrograms.memWrite (a : Addr) (v : Byte) : SameToPrograms (s.memWrite a v) (s'.memWrite a v) :=
  { h with mem := congrArg (Memory.put · a.toNat v) h.mem }

theorem SameToPrograms.decSp : SameToPrograms s.decSp s'.decSp := by
  simpa only [State.decSp, h.pushAddr] using h.setReg Config.spIndex s.pushAddr

theorem SameToPrograms.incSp : SameToPrograms s.incSp s'.incSp := by
  simpa only [State.incSp, h.sp] using h.setReg Config.spIndex (s.sp + 1)

theorem SameToPrograms.push {value value' : State → Byte} (hvalue : value' s'.decSp = value s.decSp) :
    SameToPrograms (s.push value) (s'.push value') := by
  simpa only [State.push, h.pushAddr, hvalue] using h.decSp.memWrite s.pushAddr (value s.decSp)

theorem SameToPrograms.alu (op : AluOp) (a b : RegIdx) : SameToPrograms (s.alu op a b) (s'.alu op a b) := by
  cases op with
  | cmp => simpa only [State.alu, h.reg] using h.setFlags _
  | _ => simpa only [State.alu, h.reg] using h.setReg a _

theorem SameToPrograms.fetchOperands (k n : Nat) : s'.fetchOperands k n = s.fetchOperands k n := by
  induction n generalizing k with
  | zero => rfl
  | succ n ih => simp only [State.fetchOperands, h.memRead, ih]

theorem SameToPrograms.fetchBytes : s'.fetchBytes = s.fetchBytes := by
  simp only [State.fetchBytes, h.memRead, h.pc, h.fetchOperands]

theorem SameToPrograms.raiseDecode (e : DecodeError) : SameToPrograms (s.raiseDecode e) (s'.raiseDecode e) := by
  cases e <;> exact h.raise _ _

end

end Sys2Proof.Machine

namespace Sys2Proof.Proofs
open Sys2Proof Sys2Proof.Machine

section
variable {s s' : State} (h : SameToPrograms s s')
include h

theorem jumped_sameToPrograms (taken : Bool) (r : RegIdx) : SameToPrograms (jumped s taken r) (jumped s' taken r) := by
  cases taken with
  | true => simpa only [jumped, h.reg, if_true] using h.setPc (s.reg r)
  | false => exact h.advance 2

theorem completed_sameToPrograms (i : Instr) : SameToPrograms (completed s i) (completed s' i) := by
  cases i with
  | hlt => exact h.halt
  | ldi a imm8 => exact (h.setReg _ _).advance 3
  | prn a => simpa only [completed, h.reg] using (h.output (s.reg (operandReg a))).advance 2
  | mul a b | add a b | cmp a b | and a b | or a b | xor a b => exact (h.alu _ _ _).advance 3
  | not a => exact (h.alu _ _ _).advance 2
  | push a => exact (h.push (h.decSp.reg _)).advance 2
  | pop a => simpa only [completed, h.popValue] using (h.setReg _ s.popValue).incSp.advance 2
  | call a =>
    have hp : SameToPrograms (s.push fun _ => s.pc + 2) (s'.push fun _ => s'.pc + 2) := h.push (by rw [h.pc])
    simpa only [completed, hp.reg] using hp.setPc _
  | ret => simpa only [completed, h.popValue] using h.incSp.setPc s.popValue
  | jmp a => simpa only [completed, h.reg] using h.setPc (s.reg (operandReg a))
  | jeq a | jne a => simpa only [completed, h.e] using jumped_sameToPrograms h _ _

theorem stackFault_sameToPrograms (i : Instr) : stackFault s' i = stackFault s i := by
  cases i <;> simp only [stackFault, h.sp, h.memRead]

theorem printed_sameToPrograms (i : Instr) : printed s' i = printed s i := by
  cases i <;> simp only [printed, h.reg]

/-- Related states execute to related states and print the same. -/
theorem exec_sameToPrograms (i : Instr) :
    ∃ t t' out, exec i s = .next t ∧ exec i s' = .next t' ∧ SameToPrograms t t' ∧
      t.out = s.out ++ out ∧ t'.out = s'.out ++ out := by
  have hsame : firstFault s' i = firstFault s i :=
    firstFault_congr h.pc.symm h.e.symm (stackFault_sameToPrograms h i)
  rw [exec_eq, exec_eq, hsame]
  cases firstFault s i with
  | none =>
    exact ⟨_, _, printed s i, rfl, rfl, completed_sameToPrograms h i, completed_out s i,
      printed_sameToPrograms h i ▸ completed_out s' i⟩
  | some e => exact ⟨_, _, [], rfl, rfl, h.raise _ _, by simp, by simp⟩

/-- The step lemma of noninterference: related states step to related states and print the same. -/
theorem step_sameToPrograms :
    ∃ t t' out, step s = .next t ∧ step s' = .next t' ∧ SameToPrograms t t' ∧
      t.out = s.out ++ out ∧ t'.out = s'.out ++ out := by
  unfold step
  rw [← h.running, h.fetchBytes]
  split
  · split
    · exact exec_sameToPrograms h _
    · next e _ =>
      obtain ⟨f, n, he⟩ := raiseDecode_eq_raise s e
      obtain ⟨f', n', he'⟩ := raiseDecode_eq_raise s' e
      exact ⟨_, _, [], rfl, rfl, h.raiseDecode e, by simp [he], by simp [he']⟩
  · exact ⟨s, s', [], rfl, rfl, h, by simp, by simp⟩

end

theorem core_run_succ {s t : State} (h : step s = .next t) (k : Nat) :
    Sys2Proof.core.run (k + 1) s = Sys2Proof.core.run k t := by
  have h : Sys2Proof.core.step s = .next t := h
  simp only [Host.Core.run, h]

/-- Settles O37, by induction on the number of steps, with the step lemma `step_sameToPrograms`. -/
theorem unreadStateNeverInfluencesARun : Obligations.UnreadStateNeverInfluencesARun := by
  intro s s' k
  induction k generalizing s s' with
  | zero => exact fun h => ⟨s, s', rfl, rfl, h, [], by simp, by simp⟩
  | succ k ih =>
    intro h
    obtain ⟨u, u', first, hstep, hstep', hu, hout, hout'⟩ := step_sameToPrograms h
    obtain ⟨t, t', hrun, hrun', ht, rest, hrest, hrest'⟩ := ih u u' hu
    refine ⟨t, t', (core_run_succ hstep k).trans hrun, (core_run_succ hstep' k).trans hrun', ht, first ++ rest, ?_, ?_⟩
    · rw [hrest, hout, List.append_assoc]
    · rw [hrest', hout', List.append_assoc]

end Sys2Proof.Proofs

end

section
/-! The invariant, the reset state and the canonical memory: O39, O40, O38, O43. -/

namespace Sys2Proof.Proofs
open Sys2Proof Sys2Proof.Machine

/-! ### A recorded fault tells the truth -/

theorem addressCheck_eq_some {sum : Nat} {f : Fault} {n : Nat} (h : addressCheck sum = some (f, n)) :
    f = .addressOutOfRange ∧ n = 256 ∧ 255 < sum := by
  simp only [addressCheck, Option.ite_none_right_eq_some, Option.some.injEq, Prod.mk.injEq] at h
  obtain ⟨hsum, rfl, rfl⟩ := h
  exact ⟨rfl, rfl, hsum⟩

/-- What a fault of stages 3 to 6 says about the state and the instruction, by its cause. -/
theorem firstFault_some_cases {s : State} {i : Instr} {f : Fault} {n : Nat} (h : firstFault s i = some (f, n)) :
    (f = .addressOutOfRange ∧ n = 256 ∧ 255 < s.pc.toNat + instrLength i) ∨
    (f = .invalidRegisterIndex ∧ 7 < n ∧ ∃ a ∈ registerOperands i, n = a.toNat) ∨
    (n = 0 ∧ stackFault s i = some f) := by
  rw [firstFault_eq_findSome?] at h
  obtain ⟨c, hc, hsome⟩ := List.exists_of_findSome?_eq_some h
  obtain rfl : c = some (f, n) := hsome
  simp only [checks, List.mem_cons, List.mem_append, List.mem_map, List.not_mem_nil, or_false] at hc
  obtain hc | ⟨a, ha, hc⟩ | hc | hc := hc
  · obtain ⟨hf, hn, hsum⟩ := addressCheck_eq_some hc.symm
    exact .inl ⟨hf, hn, by omega⟩
  · simp only [indexCheck, Option.ite_none_right_eq_some, Option.some.injEq, Prod.mk.injEq] at hc
    obtain ⟨hgt, rfl, rfl⟩ := hc
    exact .inr (.inl ⟨rfl, hgt, a, ha, rfl⟩)
  · obtain ⟨g, hg, hgf⟩ := Option.map_eq_some_iff.mp hc.symm
    obtain ⟨rfl, rfl⟩ := Prod.mk.inj hgf
    exact .inr (.inr ⟨rfl, hg⟩)
  · simp only [successorCheck] at hc
    split at hc
    · exact .inl (addressCheck_eq_some hc.symm)
    · cases hc

/-- A stack fault says at which bound the stack pointer, or the popped value of `POP r7`, stands. -/
theorem stackFault_some_cases {s : State} {i : Instr} {f : Fault} (h : stackFault s i = some f) :
    (f = .stackOverflow ∧ s.sp = 0x00#8) ∨ (f = .stackUnderflow ∧ (s.sp = 0xFF#8 ∨ s.memRead s.sp = 0xFF#8)) := by
  cases i with
  | push a | call a =>
    simp only [stackFault, Option.ite_none_right_eq_some, Option.some.injEq] at h
    obtain ⟨hsp, rfl⟩ := h
    exact .inl ⟨rfl, BitVec.eq_of_toNat_eq hsp⟩
  | ret =>
    simp only [stackFault, Option.ite_none_right_eq_some, Option.some.injEq] at h
    obtain ⟨hsp, rfl⟩ := h
    exact .inr ⟨rfl, .inl (BitVec.eq_of_toNat_eq hsp)⟩
  | pop a =>
    simp only [stackFault] at h
    split at h <;> simp only [Option.ite_none_right_eq_some, Option.some.injEq] at h
    · obtain ⟨hcell, rfl⟩ := h
      exact .inr ⟨rfl, .inr (BitVec.eq_of_toNat_eq hcell)⟩
    · obtain ⟨hsp, rfl⟩ := h
      exact .inr ⟨rfl, .inl (BitVec.eq_of_toNat_eq hsp)⟩
  | _ => cases h

theorem operandBytes_length_le (i : Instr) : (operandBytes i).length ≤ 2 := by
  cases i <;> simp [operandBytes]

theorem registerOperands_subset (i : Instr) : registerOperands i ⊆ operandBytes i := by
  cases i <;> simp [registerOperands, operandBytes]

/-- Where an operand byte of the decoded instruction stands in memory: just after the opcode, or one byte further. -/
theorem operand_in_memory {s : State} {i : Instr} {rest : List Byte} (hd : decode s.fetchBytes = .ok (i, rest))
    {a : Byte} (ha : a ∈ operandBytes i) :
    (s.pc.toNat ≤ 254 ∧ a = s.memRead (s.pc + 1)) ∨ (s.pc.toNat ≤ 253 ∧ a = s.memRead (s.pc + 2)) := by
  obtain ⟨-, -, hops⟩ := decode_fetchBytes_ok hd
  have hlen := operandBytes_length_le i
  obtain ⟨j, hj⟩ := List.mem_iff_getElem?.mp ha
  have hjlen : j < (operandBytes i).length := (List.getElem?_eq_some_iff.mp hj).1
  rw [hops] at hj
  obtain ⟨hle, haddr⟩ := fetchOperands_getElem? hj
  rw [Nat.add_assoc, BitVec.ofNat_add, BitVec.ofNat_toNat, BitVec.setWidth_eq] at haddr
  obtain rfl | rfl : j = 0 ∨ j = 1 := by omega
  · exact .inl ⟨by omega, haddr⟩
  · exact .inr ⟨by omega, haddr⟩

/-- A fault raised by the decoded instruction is recorded truly. -/
theorem recordTrue_of_firstFault {s : State} {i : Instr} {rest : List Byte} {f : Fault} {n : Nat}
    (hd : decode s.fetchBytes = .ok (i, rest)) (hf : firstFault s i = some (f, n)) :
    recordTrue (s.raise f n) ⟨f, s.pc, n⟩ := by
  refine ⟨rfl, ?_⟩
  obtain ⟨rfl, rfl, hsum⟩ | ⟨rfl, hgt, a, ha, rfl⟩ | ⟨rfl, hstack⟩ := firstFault_some_cases hf
  · have := operandBytes_length_le i
    exact ⟨rfl, by simp only [State.raise_pc]; unfold instrLength at hsum; omega⟩
  · refine ⟨hgt, ?_⟩
    obtain ⟨hpc, rfl⟩ | ⟨hpc, rfl⟩ := operand_in_memory hd (registerOperands_subset i ha)
    · exact .inl ⟨hpc, rfl⟩
    · exact .inr ⟨hpc, rfl⟩
  · obtain ⟨rfl, hsp⟩ | ⟨rfl, hsp⟩ := stackFault_some_cases hstack
    · exact ⟨rfl, hsp⟩
    · exact ⟨rfl, hsp⟩

theorem nops_le_two (f : Form) : f.nops ≤ 2 := by cases f <;> simp [Form.nops]

/-! ### The invariant, kept by every step -/

theorem inv_raise {s : State} (hs : Inv s) {f : Fault} {n : Nat} (h : recordTrue (s.raise f n) ⟨f, s.pc, n⟩) :
    Inv (s.raise f n) where
  mem := hs.mem
  flags := hs.flags
  fault r hr := by
    obtain rfl := Option.some.inj hr
    exact ⟨rfl, h⟩

theorem inv_raiseDecode {s : State} {e : DecodeError} (hs : Inv s) (hd : decode s.fetchBytes = .error e) :
    Inv (s.raiseDecode e) := by
  obtain ⟨rfl, hnone⟩ | ⟨rfl, f, -, hlast⟩ := decode_fetchBytes_error hd
  · exact inv_raise hs ⟨rfl, rfl, hnone⟩
  · have := nops_le_two f
    exact inv_raise hs ⟨rfl, rfl, show 253 ≤ s.pc.toNat by omega⟩

/-- A running engine has no record (R135), and an instruction that completes makes none. -/
theorem inv_completed {s : State} (hs : Inv s) (hrun : s.running = true) (i : Instr) : Inv (completed s i) where
  mem := completed_mem_wf hs.mem i
  flags := completed_flags_atMostOne hs.flags i
  fault r hr := by
    rw [completed_fault] at hr
    simp [(hs.fault r hr).1] at hrun

/-- Settles O39, along what a step can do: a recorded fault is true, and a completed instruction records none. -/
theorem everyStepKeepsTheInvariant : Obligations.EveryStepKeepsTheInvariant := by
  intro s t hs h
  obtain ⟨-, rfl⟩ | ⟨-, e, hd, rfl⟩ | ⟨hrun, i, hd, hi⟩ := step_next_cases h
  · exact hs
  · exact inv_raiseDecode hs hd
  · obtain ⟨f, n, hf, rfl⟩ | ⟨-, rfl⟩ := exec_next_cases hi
    · exact inv_raise hs (recordTrue_of_firstFault hd hf)
    · exact inv_completed hs hrun i

/-- Settles O40, field by field. -/
theorem resetMeetsTheInvariant : Obligations.ResetMeetsTheInvariant where
  mem := State.reset_wf
  flags := rfl
  fault _ h := nomatch h

/-- Settles O38, by evaluation of the reset state. -/
theorem resetStateHoldsTheValuesOfTheResetTable : Obligations.ResetStateHoldsTheValuesOfTheResetTable :=
  ⟨by decide, rfl, rfl, rfl, rfl, rfl, fun _ => rfl, rfl⟩

/-! ### The canonical form of the memory -/

theorem wfFrom_cons {low j : Nat} {v : Byte} {m : Memory} :
    Memory.wfFrom low ((j, v) :: m) = true ↔
      low ≤ j ∧ j < Config.memSize ∧ v ≠ Config.memReset ∧ Memory.wfFrom (j + 1) m = true := by
  simp [Memory.wfFrom, and_assoc]

/-- Below its lowest listed address a canonical memory reads as reset. -/
theorem get_of_lt_low {low k : Nat} {m : Memory} (hm : Memory.wfFrom low m = true) (hk : k < low) :
    Memory.get m k = Config.memReset := by
  induction m generalizing low with
  | nil => rfl
  | cons c m ih =>
    obtain ⟨hlow, -, -, htail⟩ := wfFrom_cons.mp hm
    rw [Memory.get, if_neg (by omega), ih htail (by omega)]

/-- A memory that reads like one whose first listed address is `j` lists an address up to `j`. -/
theorem low_le_of_get_eq {low low' j : Nat} {v : Byte} {m n : Memory} (hm : Memory.wfFrom low ((j, v) :: m) = true)
    (hn : Memory.wfFrom low' n = true) (h : Memory.get ((j, v) :: m) j = Memory.get n j) : low' ≤ j := by
  by_contra hlt
  obtain ⟨-, -, hv, -⟩ := wfFrom_cons.mp hm
  rw [Memory.get, if_pos rfl, get_of_lt_low hn (by omega)] at h
  exact hv h

/-- Canonical memories that read alike are equal: their first entries have the same address, then the tails read alike. -/
theorem eq_of_wfFrom_of_get_eq {low : Nat} {m n : Memory} (hm : Memory.wfFrom low m = true)
    (hn : Memory.wfFrom low n = true) (h : ∀ k < Config.memSize, Memory.get m k = Memory.get n k) : m = n := by
  induction m generalizing low n with
  | nil =>
    cases n with
    | nil => rfl
    | cons d n =>
      obtain ⟨-, hj, hv, -⟩ := wfFrom_cons.mp hn
      have := h d.1 hj
      simp [Memory.get, hv.symm] at this
  | cons c m ih =>
    obtain ⟨j, v⟩ := c
    obtain ⟨-, hj, hv, hm'⟩ := wfFrom_cons.mp hm
    cases n with
    | nil =>
      have := h j hj
      simp [Memory.get, hv] at this
    | cons d n =>
      obtain ⟨j', v'⟩ := d
      obtain ⟨-, hj', hv', hn'⟩ := wfFrom_cons.mp hn
      have hle : j' ≤ j := low_le_of_get_eq hm (wfFrom_cons.mpr ⟨le_rfl, hj', hv', hn'⟩) (h j hj)
      have hge : j ≤ j' := low_le_of_get_eq hn (wfFrom_cons.mpr ⟨le_rfl, hj, hv, hm'⟩) (h j' hj').symm
      obtain rfl : j = j' := Nat.le_antisymm hge hle
      have hvv : v = v' := by simpa [Memory.get] using h j hj
      have htails : ∀ k < Config.memSize, Memory.get m k = Memory.get n k := by
        intro k hk
        by_cases hkj : j = k
        · rw [get_of_lt_low hm' (by omega), get_of_lt_low hn' (by omega)]
        · simpa [Memory.get, hkj] using h k hk
      rw [hvv, ih hm' hn' htails]

/-- Settles O43, by `eq_of_wfFrom_of_get_eq` from address 0. -/
theorem canonicalMemoriesReadingAlikeAreEqual : Obligations.CanonicalMemoriesReadingAlikeAreEqual :=
  fun _ _ hm hn h => eq_of_wfFrom_of_get_eq hm hn h

end Sys2Proof.Proofs

end

section
/-! SUPPORT. Memory: which cell an instruction and a step can change, and that a later fetch reads the changed cell. -/

namespace Sys2Proof.Proofs
open Sys2Proof Sys2Proof.Machine

/-! ### Words in memory -/

/-- The decoder takes exactly the encoding off the front of a byte list, for every row of 30_encoding.md R54. -/
theorem decode_encode_append (i : Instr) (rest : List Byte) : decode (encode i ++ rest) = .ok (i, rest) := by
  cases i <;> rfl

/-- Settles O3: each word is the encoding of its instruction. -/
theorem workedProgramWordsDecode : Obligations.WorkedProgramWordsDecode :=
  ⟨decode_encode_append (.ldi 0#8 8#8) [], decode_encode_append (.ldi 1#8 9#8) [], decode_encode_append (.add 0#8 1#8) [],
    decode_encode_append (.prn 0#8) [], decode_encode_append .hlt []⟩

/-! ### The one cell that can change -/

/-- A completed instruction leaves every cell but the one it stores to. -/
theorem completed_memRead_other {s : State} {i : Instr} {k : Addr} (h : storeAddr s i ≠ some k) :
    (completed s i).memRead k = s.memRead k := by
  cases i with
  | push a | call a =>
    simp only [completed, State.advance_memRead, State.setPc_memRead, State.push_memRead]
    exact if_neg fun hk => h (congrArg some hk)
  | _ => simp [completed, State.memRead]

/-- An instruction leaves every cell but the one it stores to, whether it completes or faults. -/
theorem exec_memRead_other {i : Instr} {s t : State} {k : Addr} (h : exec i s = .next t) (hk : storeAddr s i ≠ some k) :
    t.memRead k = s.memRead k := by
  obtain ⟨f, n, -, rfl⟩ | ⟨-, rfl⟩ := exec_next_cases h
  · exact State.raise_memRead ..
  · exact completed_memRead_other hk

/-- Only PUSH and CALL store, and both at the decremented stack pointer (20_memory.md R32). -/
theorem storeAddr_eq_some {s : State} {i : Instr} {k : Addr} (h : storeAddr s i = some k) :
    k = s.pushAddr ∧ ∃ a, i = .push a ∨ i = .call a := by
  cases i with
  | push a => exact ⟨(Option.some.inj h).symm, a, .inl rfl⟩
  | call a => exact ⟨(Option.some.inj h).symm, a, .inr rfl⟩
  | _ => cases h

/-- Settles O35: of all that a step can do, only a decoded instruction changes a cell, and only the one it stores to. -/
theorem onlyPushAndCallWriteMemory : Obligations.OnlyPushAndCallWriteMemory := by
  refine ⟨fun i s t k => exec_memRead_other, fun s t k h hne => ?_⟩
  obtain ⟨-, rfl⟩ | ⟨-, e, -, rfl⟩ | ⟨-, i, hd, hi⟩ := step_next_cases h
  · exact absurd rfl hne
  · obtain ⟨f, n, hraise⟩ := raiseDecode_eq_raise s e
    exact absurd (hraise ▸ State.raise_memRead ..) hne
  · have hstore : storeAddr s i = some k := not_not.mp (mt (exec_memRead_other hi) hne)
    obtain ⟨hk, a, rfl | rfl⟩ := storeAddr_eq_some hstore
    · exact ⟨hk, a, .inl hd⟩
    · exact ⟨hk, a, .inr hd⟩

/-! ### A store followed by a fetch -/

/-- An instruction completes when it and its successor lie in memory, its register operands are valid and the stack
bounds hold (40_execution_cycle.md R68). -/
theorem exec_eq_completed {s : State} {i : Instr} (hpc : s.pc.toNat + instrLength i ≤ 255)
    (hregs : ∀ a ∈ registerOperands i, a.toNat ≤ 7) (hstack : stackFault s i = none) :
    exec i s = .next (completed s i) := by
  have hfind : (registerOperands i).find? (fun a => decide (a.toNat > 7)) = none :=
    List.find?_eq_none.mpr fun a ha => by simpa using hregs a ha
  have hnone : firstFault s i = none := by
    rw [firstFault, if_neg (by omega), hfind, hstack]
    exact if_neg fun h => absurd hpc (Nat.not_le.mpr h.2)
  rw [exec_eq, hnone]
  rfl

/-- The bytes a step fetches begin with the cell at the program counter. -/
theorem fetchBytes_head? (s : State) : s.fetchBytes.head? = some (s.memRead s.pc) := rfl

/-- What a completed PUSH of a register other than the stack pointer stores. -/
theorem completed_push_memRead {s : State} {a : Byte} (ha : operandReg a ≠ Config.spIndex) :
    (completed s (.push a)).memRead s.pushAddr = s.reg (operandReg a) := by
  have hreg : s.decSp.reg (operandReg a) = s.reg (operandReg a) := State.setReg_reg_other _ _ _ _ ha.symm
  simp only [completed, State.advance_memRead, State.push_memRead, if_pos, hreg]

/-- Settles O24: the decremented stack pointer is the next program counter, so the fetch reads the stored cell. -/
theorem pushedByteIsFetchedNext : Obligations.PushedByteIsFetchedNext := by
  intro s a ha hpc hsp
  have hvalid : ∀ b ∈ registerOperands (.push a), b.toNat ≤ 7 := by
    simp only [registerOperands, List.mem_singleton, forall_eq]
    omega
  have hroom : stackFault s (.push a) = none := if_neg (by omega)
  have hlen : s.pc.toNat + instrLength (.push a) ≤ 255 := by
    simp only [instrLength, operandBytes, List.length_singleton]
    omega
  refine ⟨completed s (.push a), exec_eq_completed hlen hvalid hroom, ?_⟩
  have hnext : (completed s (.push a)).pc = s.pushAddr := by
    show s.pc + 2#8 = s.sp - 1#8
    bv_omega
  have hother : operandReg a ≠ Config.spIndex := fun h => by
    have := (operandReg_eq_spIndex a).mp h
    omega
  rw [fetchBytes_head?, hnext, completed_push_memRead hother, operandReg_of_lt]

end Sys2Proof.Proofs

end

section
/-! The encoding of the instructions: O1, O2, O7. -/

namespace Sys2Proof.Proofs
open Sys2Proof Sys2Proof.Machine Sys2Proof.Claims

/-! ### Decoding gives back the encoding -/

/-- Bytes that decode begin with the encoding of the instruction they decode to. -/
theorem eq_encode_append_of_decode {bs rest : List Byte} {i : Instr} (h : decode bs = .ok (i, rest)) :
    bs = encode i ++ rest := by
  cases bs with
  | nil => cases h
  | cons op operands =>
    unfold decode at h
    cases hf : opcodeForm op with
    | none => simp [hf] at h
    | some f =>
      simp only [hf] at h
      obtain ⟨hop, hbs, -⟩ := fill_eq_ok hf h
      rw [encode, hop, hbs, List.cons_append]

/-- Settles O1: one direction reads the dispatch table, the other runs the decoder on an encoding. -/
theorem decodeInvertsEncodeExactly : Obligations.DecodeInvertsEncodeExactly := by
  intro bs i rest
  constructor
  · exact eq_encode_append_of_decode
  · rintro rfl
    exact decode_encode_append i rest

/-! ### The bytes that are no opcode -/

theorem opcodeByte_mem_opcodes (i : Instr) : opcodeByte i ∈ opcodes := by
  cases i <;> simp [opcodeByte, opcodes]

/-- The dispatch table has no row beside the 17: a row's byte is the opcode of the instructions it makes. -/
theorem mem_opcodes_of_opcodeForm {op : Byte} {f : Form} (h : opcodeForm op = some f) : op ∈ opcodes := by
  have henc := encodes_of_opcodeForm h
  cases f with
  | f0 i => exact henc.1 ▸ opcodeByte_mem_opcodes i
  | f1 mk => exact (henc 0).1 ▸ opcodeByte_mem_opcodes (mk 0)
  | f2 mk => exact (henc 0 0).1 ▸ opcodeByte_mem_opcodes (mk 0 0)

theorem opcodeForm_of_not_mem {op : Byte} (h : op ∉ opcodes) : opcodeForm op = none :=
  Option.eq_none_iff_forall_ne_some.mpr fun _ hf => h (mem_opcodes_of_opcodeForm hf)

/-- An invalid opcode byte is reported whatever follows it (30_encoding.md R56). -/
theorem decode_of_not_mem_opcodes {op : Byte} (h : op ∉ opcodes) (rest : List Byte) :
    decode (op :: rest) = .error (.invalidOpcode op) := by
  rw [decode, opcodeForm_of_not_mem h]

theorem opcodes_nodup : opcodes.Nodup := by decide

/-- Settles O2: each row is `decode_encode_append` of its instruction. -/
theorem opcodeByteSelectsOneOfSeventeen : Obligations.OpcodeByteSelectsOneOfSeventeen :=
  ⟨decode_encode_append .hlt, fun a imm8 => decode_encode_append (.ldi a imm8), fun a => decode_encode_append (.prn a),
    fun a b => decode_encode_append (.mul a b), fun a b => decode_encode_append (.add a b),
    fun a b => decode_encode_append (.cmp a b), fun a b => decode_encode_append (.and a b),
    fun a b => decode_encode_append (.or a b), fun a b => decode_encode_append (.xor a b),
    fun a => decode_encode_append (.not a), fun a => decode_encode_append (.push a),
    fun a => decode_encode_append (.pop a), fun a => decode_encode_append (.call a), decode_encode_append .ret,
    fun a => decode_encode_append (.jmp a), fun a => decode_encode_append (.jeq a),
    fun a => decode_encode_append (.jne a), fun _ rest h => decode_of_not_mem_opcodes h rest, opcodes_nodup⟩

/-! ### The step on such a byte -/

theorem step_eq_raiseDecode {s : State} {e : DecodeError} (hrun : s.running = true)
    (hd : decode s.fetchBytes = .error e) : step s = .next (s.raiseDecode e) := by
  rw [step, if_pos hrun, hd]

/-- The byte values that are opcodes, counted from 0, are the 17 of the table in another order. -/
theorem filter_opcodes_perm :
    ((List.range 256).filter fun n => decide (BitVec.ofNat 8 n ∈ opcodes)).Perm (opcodes.map BitVec.toNat) := by
  have hnodup : (opcodes.map BitVec.toNat).Nodup := opcodes_nodup.map BitVec.toNat_injective
  refine (List.perm_ext_iff_of_nodup (List.nodup_range.filter _) hnodup).mpr fun n => ?_
  simp only [List.mem_filter, List.mem_range, decide_eq_true_eq, List.mem_map]
  constructor
  · rintro ⟨hlt, hop⟩
    exact ⟨_, hop, by rw [BitVec.toNat_ofNat, Nat.mod_eq_of_lt hlt]⟩
  · rintro ⟨op, hop, rfl⟩
    exact ⟨op.isLt, by rwa [BitVec.ofNat_toNat, BitVec.setWidth_eq]⟩

/-- 256 byte values without the 17 opcodes. -/
theorem invalid_opcodes_length :
    ((List.range 256).filter fun n => decide (BitVec.ofNat 8 n ∉ opcodes)).length = 239 := by
  have hvalid : ((List.range 256).filter fun n => decide (BitVec.ofNat 8 n ∈ opcodes)).length = 17 := by
    rw [filter_opcodes_perm.length_eq, List.length_map]
    rfl
  have hsplit := List.length_eq_length_filter_add (l := List.range 256) fun n => decide (BitVec.ofNat 8 n ∈ opcodes)
  simp only [List.length_range, hvalid, ← decide_not] at hsplit
  omega

/-- Settles O7: the fetched bytes begin with the invalid opcode byte, so they do not decode. -/
theorem invalidOpcodeFaultsAtOnce : Obligations.InvalidOpcodeFaultsAtOnce :=
  ⟨fun _ hrun hop => step_eq_raiseDecode hrun (decode_of_not_mem_opcodes hop _), invalid_opcodes_length, by decide⟩

end Sys2Proof.Proofs

end

section
/-! SUPPORT. Bytes placed in memory and fetched again, and the program counter and running flag of a completed
instruction. -/

namespace Sys2Proof.Proofs
open Sys2Proof Sys2Proof.Machine Sys2Proof.Claims

/-! ### Fetching what memory holds -/

theorem opcodeForm_opcodeByte (i : Instr) :
    ∃ f, opcodeForm (opcodeByte i) = some f ∧ f.nops = (operandBytes i).length := by
  cases i <;> exact ⟨_, rfl, rfl⟩

/-- The operand bytes fetched are those that memory holds from address `k` upward. -/
theorem fetchOperands_eq_of_memRead {s : State} {k : Nat} {bs : List Byte}
    (h : ∀ j b, bs[j]? = some b → k + j ≤ 255 ∧ s.memRead (BitVec.ofNat 8 (k + j)) = b) :
    s.fetchOperands k bs.length = bs := by
  induction bs generalizing k with
  | nil => rfl
  | cons b bs ih =>
    obtain ⟨hk, hread⟩ := h 0 b rfl
    have htail : s.fetchOperands (k + 1) bs.length = bs :=
      ih fun j c hc => Nat.add_right_comm k 1 j ▸ h (j + 1) c hc
    rw [List.length_cons, State.fetchOperands, if_pos (by omega), htail]
    exact congrArg (· :: bs) hread

/-- Memory that holds an instruction's encoding at the program counter is fetched as that encoding, byte for byte
(40_execution_cycle.md R67). -/
theorem fetchBytes_eq_encode {s : State} {i : Instr}
    (h : ∀ j b, (encode i)[j]? = some b →
      s.pc.toNat + j ≤ 255 ∧ s.memRead (BitVec.ofNat 8 (s.pc.toNat + j)) = b) :
    s.fetchBytes = encode i := by
  obtain ⟨f, hf, hnops⟩ := opcodeForm_opcodeByte i
  have hop : s.memRead s.pc = opcodeByte i := by simpa using (h 0 _ rfl).2
  have hoperands : s.fetchOperands (s.pc.toNat + 1) (operandBytes i).length = operandBytes i :=
    fetchOperands_eq_of_memRead fun j b hb => Nat.add_right_comm s.pc.toNat 1 j ▸ h (j + 1) b hb
  simp only [State.fetchBytes, hop, hf, hnops, hoperands, encode]

/-- An opcode whose operand bytes pass address 255 does not decode, whatever the bytes before the end are. -/
theorem decode_fetchBytes_missing {s : State} {f : Form} (hf : opcodeForm (s.memRead s.pc) = some f)
    (hlast : 255 < s.pc.toNat + f.nops) : decode s.fetchBytes = .error .missingBytes := by
  have hfill : decode s.fetchBytes = f.fill (s.fetchOperands (s.pc.toNat + 1) f.nops) := by
    simp only [State.fetchBytes, decode, hf]
  cases hd : decode s.fetchBytes with
  | ok r =>
    obtain ⟨-, hbytes, hlen⟩ := fill_eq_ok hf (hfill.symm.trans hd)
    have := congrArg List.length hbytes
    rw [fetchOperands_length, List.length_append] at this
    omega
  | error e => rw [(fill_eq_error (hfill.symm.trans hd)).1]

/-! ### Writing bytes -/

/-- Writing bytes changes the memory and nothing else. -/
theorem writeBytes_eq (s : State) (k : Nat) (bs : List Byte) :
    s.writeBytes k bs = { s with mem := (s.writeBytes k bs).mem } := by
  induction bs generalizing s k with
  | nil => rfl
  | cons b bs ih =>
    rw [State.writeBytes]
    split
    · exact ih (s.memWrite (BitVec.ofNat 8 k) b) (k + 1)
    · rfl

theorem writeBytes_memRead_of_lt {s : State} {k : Nat} {a : Addr} (bs : List Byte) (h : a.toNat < k) :
    (s.writeBytes k bs).memRead a = s.memRead a := by
  induction bs generalizing s k with
  | nil => rfl
  | cons b bs ih =>
    rw [State.writeBytes]
    split
    · next hk =>
      have hne : BitVec.ofNat 8 k ≠ a := fun hka => by
        rw [← hka, BitVec.toNat_ofNat] at h
        omega
      rw [ih (by omega), State.memRead_memWrite, if_neg hne]
    · rfl

/-- A written byte that has a place in memory is read back at its address. -/
theorem writeBytes_memRead {s : State} {k j : Nat} {bs : List Byte} {b : Byte} (hb : bs[j]? = some b)
    (hj : k + j ≤ 255) : (s.writeBytes k bs).memRead (BitVec.ofNat 8 (k + j)) = b := by
  induction bs generalizing s k j with
  | nil => simp at hb
  | cons c bs ih =>
    rw [State.writeBytes, if_pos (by omega)]
    cases j with
    | zero =>
      have hlt : (BitVec.ofNat 8 k).toNat < k + 1 := by
        rw [BitVec.toNat_ofNat]
        omega
      rw [Nat.add_zero k, writeBytes_memRead_of_lt _ hlt, State.memRead_memWrite, if_pos rfl]
      simpa using hb
    | succ j => exact Nat.add_right_comm k 1 j ▸ ih (k := k + 1) (by simpa using hb) (by omega)

/-- A table word that the decoder reads as `i` begins with `i`'s encoding. -/
theorem tableBytes_of_decodeTableWord {nbits w : Nat} {i : Instr} (h : decodeTableWord nbits w = some i) :
    ∃ rest, tableBytes nbits w = encode i ++ rest := by
  unfold decodeTableWord at h
  split at h
  · next j rest hd =>
    cases h
    exact ⟨rest, eq_encode_append_of_decode hd⟩
  · cases h

/-- Placing a word changes the memory and sets `running` (70_reset_and_hazards.md R163, R165). -/
theorem withFetchWord_eq (s : State) (nbits w : Nat) :
    s.withFetchWord nbits w = { s with running := true, mem := (s.withFetchWord nbits w).mem } :=
  congrArg (fun t : State => { t with running := true }) (writeBytes_eq s s.pc.toNat (tableBytes nbits w))

/-- With room for three bytes, the bytes fetched after placing a word are the encoding of its instruction. -/
theorem withFetchWord_fetchBytes {s : State} {nbits w : Nat} {i : Instr} (hpc : s.pc.toNat ≤ 253)
    (h : decodeTableWord nbits w = some i) : (s.withFetchWord nbits w).fetchBytes = encode i := by
  obtain ⟨rest, hbytes⟩ := tableBytes_of_decodeTableWord h
  have hsame : (s.withFetchWord nbits w).pc = s.pc := by rw [withFetchWord_eq]
  refine fetchBytes_eq_encode fun j b hb => ?_
  have hword : (tableBytes nbits w)[j]? = some b := by
    rw [hbytes, List.getElem?_append_left (List.getElem?_eq_some_iff.mp hb).1, hb]
  have hj : j < 3 := (List.getElem?_eq_some_iff.mp hword).1
  rw [hsame]
  exact ⟨by omega, writeBytes_memRead hword (by omega)⟩

/-! ### The step -/

theorem step_eq_exec {s : State} {i : Instr} {rest : List Byte} (hrun : s.running = true)
    (hd : decode s.fetchBytes = .ok (i, rest)) : step s = exec i s := by
  rw [step, if_pos hrun, hd]

theorem step_of_stopped {s : State} (hrun : s.running = false) : step s = .next s := by
  rw [step, hrun]
  rfl

/-- A stopped engine stays as it is for any number of steps (40_execution_cycle.md R65). -/
theorem core_run_of_stopped {s : State} (hrun : s.running = false) (k : Nat) : Sys2Proof.core.run k s = .next s := by
  induction k with
  | zero => rfl
  | succ k ih => rw [core_run_succ (step_of_stopped hrun), ih]

/-! ### Where a completed instruction goes -/

theorem completed_running {s : State} {i : Instr} (h : i ≠ .hlt) : (completed s i).running = s.running := by
  cases i with
  | hlt => exact absurd rfl h
  | _ => simp [completed]

/-- When no check fails, an instruction that falls through has its successor in memory (40_execution_cycle.md R68
stage 6). -/
theorem successor_le_of_firstFault {s : State} {i : Instr} (h : firstFault s i = none)
    (hfall : fallsThrough s i = true) : s.pc.toNat + instrLength i ≤ 255 := by
  rw [firstFault_eq_findSome?] at h
  have hmem : successorCheck s i ∈ checks s i := by simp [checks]
  have hcheck : successorCheck s i = none := List.findSome?_eq_none_iff.mp h _ hmem
  have hneeds : needsSuccessor s i = true := by
    cases i with
    | call a => rfl
    | _ => exact hfall
  by_contra hgt
  simp [successorCheck, hneeds, addressCheck, Nat.lt_of_not_le hgt] at hcheck

theorem completed_pc_of_fallsThrough {s : State} {i : Instr} (h : fallsThrough s i = true) :
    (completed s i).pc = s.pc + BitVec.ofNat 8 (instrLength i) := by
  cases i with
  | hlt | call a | ret | jmp a => cases h
  | jeq a =>
    have hflag : s.flags.e = false := by simpa [fallsThrough] using h
    simp only [completed, hflag]
    rfl
  | jne a =>
    have hflag : s.flags.e = true := h
    simp only [completed, hflag]
    rfl
  | mul a b | add a b | cmp a b | and a b | or a b | xor a b | not a =>
    exact congrArg (· + _) (State.alu_pc ..)
  | ldi a imm8 | prn a | push a | pop a => rfl

/-- An instruction that does not fall through goes where its row of 40_execution_cycle.md R70 says. -/
theorem completed_goesTo {s : State} {i : Instr} (h : fallsThrough s i = false) : goesTo s (completed s i).pc i := by
  cases i with
  | hlt | ret => rfl
  | call a =>
    intro r hr
    simp only [completed, State.setPc_pc, operandReg_eq_of_names hr, State.push_reg]
    exact if_congr eq_comm rfl rfl
  | jmp a =>
    intro r hr
    exact congrArg s.reg (operandReg_eq_of_names hr)
  | jeq a =>
    intro r hr
    have hflag : s.flags.e = true := by simpa [fallsThrough] using h
    simp only [completed, hflag, operandReg_eq_of_names hr]
    rfl
  | jne a =>
    intro r hr
    have hflag : s.flags.e = false := h
    simp only [completed, hflag, operandReg_eq_of_names hr]
    rfl
  | ldi a imm8 | prn a | mul a b | add a b | cmp a b | and a b | or a b | xor a b | not a | push a | pop a => cases h

end Sys2Proof.Proofs

end

section
/-! The execution cycle: O5, O6, O8, O10, O11, O32, O49. -/

namespace Sys2Proof.Proofs
open Sys2Proof Sys2Proof.Machine

/-- Settles O5: the bytes fetched begin with the encoding, and the fetch leaves nothing over. -/
theorem stepExecutesTheDecodedInstruction : Obligations.StepExecutesTheDecodedInstruction := by
  intro s i rest hrun hd
  obtain ⟨rfl, -, -⟩ := decode_fetchBytes_ok hd
  exact ⟨step_eq_exec hrun hd, rfl, by simpa using eq_encode_append_of_decode hd⟩

/-- Settles O6: a running engine by what its bytes decode to, a stopped one by induction on the number of steps. -/
theorem engineStepsExactlyWhileRunning : Obligations.EngineStepsExactlyWhileRunning := by
  refine ⟨fun s hrun => ?_, fun s hrun => ⟨step_of_stopped hrun, core_run_of_stopped hrun⟩⟩
  cases hd : decode s.fetchBytes with
  | ok r =>
    obtain ⟨i, rest⟩ := r
    obtain ⟨rfl, -, -⟩ := decode_fetchBytes_ok hd
    exact .inl ⟨i, rfl, step_eq_exec hrun hd⟩
  | error e => exact .inr ⟨e, rfl, step_eq_raiseDecode hrun hd⟩

/-- Settles O8: the fetched bytes end before the last operand, so they do not decode. -/
theorem missingOperandBytesFault : Obligations.MissingOperandBytesFault :=
  fun _ hrun _ hf hlast => step_eq_raiseDecode hrun (decode_fetchBytes_missing hf hlast)

/-- Settles O10: `exec_eq` with the two answers of `firstFault`. -/
theorem checksFailInTheOrderOfTheTable : Obligations.ChecksFailInTheOrderOfTheTable := by
  intro i s
  constructor
  · intro f n hf
    rw [exec_eq, hf]
    rfl
  · intro hnone
    refine ⟨completed s i, ?_, completed_fault s i, completed_running⟩
    rw [exec_eq, hnone]
    rfl

/-- Settles O11: the meanings by `exec_eq`, the step by O6's cases. -/
theorem everyStepAnswersANextState : Obligations.EveryStepAnswersANextState := by
  refine ⟨fun s => ?_, fun i s => ⟨_, exec_eq i s⟩⟩
  cases hrun : s.running with
  | false => exact ⟨s, step_of_stopped hrun⟩
  | true =>
    obtain ⟨i, -, hstep⟩ | ⟨e, -, hstep⟩ := engineStepsExactlyWhileRunning.1 s hrun
    · exact ⟨_, hstep.trans (exec_eq i s)⟩
    · exact ⟨_, hstep⟩

/-- Settles O32: a fault leaves the program counter, and a completed instruction's is that of its row, where the
successor check keeps the 8-bit sum exact. -/
theorem programCounterFollowsTheTable : Obligations.ProgramCounterFollowsTheTable := by
  intro i s t h
  obtain ⟨f, n, hf, rfl⟩ | ⟨hnone, rfl⟩ := exec_next_cases h
  · simp [hf]
  · refine ⟨fun _ hfall => ?_, fun _ => completed_goesTo, fun f n hf => by simp [hnone] at hf⟩
    have hle := successor_le_of_firstFault hnone hfall
    rw [completed_pc_of_fallsThrough hfall, BitVec.toNat_add, BitVec.toNat_ofNat]
    omega

/-- Settles O49: the placed bytes are fetched as the encoding of the word's instruction. -/
theorem placedWordRunsNext : Obligations.PlacedWordRunsNext := by
  intro s nbits w i hpc hw
  have hd : decode (s.withFetchWord nbits w).fetchBytes = .ok (i, []) := by
    rw [withFetchWord_fetchBytes hpc hw, ← List.append_nil (encode i), decode_encode_append]
  exact ⟨step_eq_exec rfl hd, withFetchWord_eq s nbits w⟩

end Sys2Proof.Proofs

end

section
/-! SUPPORT. A fault from the list of an instruction's checks, and the two-byte instructions that fall through. -/

namespace Sys2Proof.Proofs
open Sys2Proof Sys2Proof.Machine Sys2Proof.Claims

/-! ### The checks one by one -/

theorem addressCheck_of_le {sum : Nat} (h : sum ≤ 255) : addressCheck sum = none := if_neg (Nat.not_lt.mpr h)

theorem addressCheck_of_gt {sum : Nat} (h : 255 < sum) : addressCheck sum = some (.addressOutOfRange, 256) := if_pos h

theorem indexCheck_of_le {a : Byte} (h : a.toNat ≤ 7) : indexCheck a = none := if_neg (Nat.not_lt.mpr h)

theorem indexCheck_of_gt {a : Byte} (h : 7 < a.toNat) : indexCheck a = some (.invalidRegisterIndex, a.toNat) := if_pos h

/-- The first check of the list that raises a fault is the fault taken (40_execution_cycle.md R68, R69). -/
theorem exec_eq_raise_of_checks {s : State} {i : Instr} {f : Fault} {n : Nat}
    (h : (checks s i).findSome? id = some (f, n)) : exec i s = .next (s.raise f n) :=
  (checksFailInTheOrderOfTheTable i s).1 f n ((firstFault_eq_findSome? s i).trans h)

/-! ### Two-byte instructions that fall through -/

/-- A two-byte instruction whose checks are its operand's place, its index and its successor's place has the faults of
41_system.md R81 and 43_alu.md R98. -/
theorem oneOperandFaults_of_checks {mk : Byte → Instr}
    (h : ∀ s a, checks s (mk a) =
      [addressCheck (s.pc.toNat + 1), indexCheck a, none, addressCheck (s.pc.toNat + 2)]) :
    OneOperandFaults mk := by
  intro s a
  refine ⟨fun hpc => exec_eq_raise_of_checks ?_, fun hpc ha => exec_eq_raise_of_checks ?_,
    fun hpc ha => exec_eq_raise_of_checks ?_⟩
  · rw [h, addressCheck_of_gt (by omega)]
    rfl
  · rw [h, addressCheck_of_le (by omega), indexCheck_of_gt ha]
    rfl
  · rw [h, addressCheck_of_le (by omega), indexCheck_of_le ha, addressCheck_of_gt (by omega)]
    rfl

/-- Advancing by `n` moves to the exact sum, taken to 8 bits (40_execution_cycle.md R70). -/
theorem advance_eq_movedTo (s : State) (n : Nat) : s.advance n = movedTo s (s.pc.toNat + n) := by
  simp only [State.advance, State.setPc, movedTo, BitVec.ofNat_add, BitVec.ofNat_toNat, BitVec.setWidth_eq]

end Sys2Proof.Proofs

end

section
/-! HLT and PRN: O12, O13. -/

namespace Sys2Proof.Proofs
open Sys2Proof Sys2Proof.Machine Sys2Proof.Claims

/-- Settles O12: HLT has no check that can fail. -/
theorem hltStopsCleanlyInPlace : Obligations.HltStopsCleanlyInPlace := ⟨rfl, fun _ => rfl⟩

/-- Settles O13: with operand and successor in memory and a valid index PRN completes; its faults are those of its list
of checks. -/
theorem prnAppendsItsRegisterToTheOutput : Obligations.PrnAppendsItsRegisterToTheOutput := by
  refine ⟨fun _ => rfl, fun s a ha hpc => ?_, oneOperandFaults_of_checks fun _ _ => rfl⟩
  have hlen : s.pc.toNat + instrLength (.prn a) ≤ 255 := Nat.add_le_add_right hpc 2
  have hregs : ∀ b ∈ registerOperands (.prn a), b.toNat ≤ 7 := by
    simpa [registerOperands] using Nat.le_of_lt_succ ha
  rw [exec_eq_completed hlen hregs rfl, completed, operandReg_of_lt ha, advance_eq_movedTo]
  rfl

end Sys2Proof.Proofs

end

section
/-! LDI: O14. -/

namespace Sys2Proof.Proofs
open Sys2Proof Sys2Proof.Machine Sys2Proof.Claims

/-- A register write followed by an advance changes that register and the program counter, and nothing else. -/
theorem setReg_advance_eq_wrote (s : State) (r : RegIdx) (v : Byte) (n : Nat) :
    (s.setReg r v).advance n = wrote s r v.toNat (s.pc.toNat + n) := by
  rw [advance_eq_movedTo, wrote, BitVec.ofNat_toNat, BitVec.setWidth_eq]
  rfl

/-- The checks of LDI: operand2 is an immediate and has none (30_encoding.md R52; 42_ldi.md R85). -/
theorem checks_ldi (s : State) (a imm8 : Byte) :
    checks s (.ldi a imm8) =
      [addressCheck (s.pc.toNat + 2), indexCheck a, none, addressCheck (s.pc.toNat + 3)] := rfl

/-- Settles O14: with operands and successor in memory and a valid index LDI completes; its faults are those of its list
of checks. -/
theorem ldiLoadsTheImmediateByte : Obligations.LdiLoadsTheImmediateByte := by
  refine ⟨fun _ _ => rfl, fun s a imm8 ha hpc => ?_, fun s a imm8 =>
    ⟨fun hpc => exec_eq_raise_of_checks ?_, fun hpc ha => exec_eq_raise_of_checks ?_,
      fun hpc ha => exec_eq_raise_of_checks ?_⟩⟩
  · have hlen : s.pc.toNat + instrLength (.ldi a imm8) ≤ 255 := Nat.add_le_add_right hpc 3
    have hregs : ∀ b ∈ registerOperands (.ldi a imm8), b.toNat ≤ 7 := by
      simpa [registerOperands] using Nat.le_of_lt_succ ha
    rw [exec_eq_completed hlen hregs rfl, completed, operandReg_of_lt ha, setReg_advance_eq_wrote]
  · rw [checks_ldi, addressCheck_of_gt (by omega)]
    rfl
  · rw [checks_ldi, addressCheck_of_le (by omega), indexCheck_of_gt ha]
    rfl
  · rw [checks_ldi, addressCheck_of_le (by omega), indexCheck_of_le ha, addressCheck_of_gt (by omega)]
    rfl

end Sys2Proof.Proofs

end

section
/-! SUPPORT. The two-operand ALU instructions as one rule, from what `aluTwoOperand` can do (43_alu.md section 2). -/

namespace Sys2Proof.Proofs
open Sys2Proof Sys2Proof.Machine Sys2Proof.Claims

/-- With operands and successor in memory and valid indices, the ALU acts and the program counter moves on by 3. -/
theorem aluTwoOperand_completes (op : AluOp) {s : State} {a b : Byte} (ha : a.toNat < 8) (hb : b.toNat < 8)
    (hpc : s.pc.toNat ≤ 252) :
    aluTwoOperand op a b s = .next ((s.alu op ⟨a.toNat, ha⟩ ⟨b.toNat, hb⟩).advance 3) := by
  rw [aluTwoOperand_eq, if_neg (by omega), dif_pos ha, dif_pos hb, if_neg (by omega)]

/-- An instruction that is a two-operand ALU operation has the faults common to the six. -/
theorem twoOperandFaults_of_exec {mk : Byte → Byte → Instr} {op : AluOp}
    (hexec : ∀ a b s, exec (mk a b) s = aluTwoOperand op a b s) : TwoOperandFaults mk := by
  intro s a b
  rw [hexec, aluTwoOperand_eq]
  refine ⟨fun hpc => if_pos hpc, fun hpc ha => ?_, fun hpc ha hb => ?_, fun hpc ha hb => ?_⟩
  · rw [if_neg (by omega), dif_neg (by omega)]
  · rw [if_neg (by omega), dif_pos (by omega), dif_neg (by omega)]
  · rw [if_neg (by omega), dif_pos (by omega), dif_pos (by omega), if_pos hpc]

/-- An ALU operation that writes `f x[a] x[b]` to `x[a]` has the rule of any `result` that `f` computes. -/
theorem aluRule_of_result {mk : Byte → Byte → Instr} {op : AluOp} {opcode : Byte} {result : Nat → Nat → Nat}
    {f : Byte → Byte → Byte} (henc : ∀ a b, encode (mk a b) = [opcode, a, b])
    (hexec : ∀ a b s, exec (mk a b) s = aluTwoOperand op a b s)
    (halu : ∀ (s : State) i j, s.alu op i j = s.setReg i (f (s.reg i) (s.reg j)))
    (hresult : ∀ u v, (f u v).toNat = result u.toNat v.toNat) : AluRule mk opcode result := by
  refine ⟨henc, fun s a b ha hb hpc => ?_, twoOperandFaults_of_exec hexec⟩
  rw [hexec, aluTwoOperand_completes op ha hb hpc, halu, setReg_advance_eq_wrote, hresult]

/-- `aluTwoOperand_eq` read from its answer: a fault taken on the old state, or the ALU and `pc <- pc + 3`. -/
theorem aluTwoOperand_next_cases {op : AluOp} {a b : Byte} {s t : State} (h : aluTwoOperand op a b s = .next t) :
    (∃ f n, t = s.raise f n) ∨
      ∃ (ha : a.toNat < 8) (hb : b.toNat < 8), t = (s.alu op ⟨a.toNat, ha⟩ ⟨b.toNat, hb⟩).advance 3 := by
  rw [aluTwoOperand_eq] at h
  split_ifs at h with _ ha hb _ <;> cases h
  case neg => exact .inr ⟨ha, hb, rfl⟩
  all_goals exact .inl ⟨_, _, rfl⟩

/-- Completing or faulting, a two-operand ALU instruction leaves memory, output and every register but `x[a]`. -/
theorem aluTwoOperand_frame {op : AluOp} {a b : Byte} {s t : State} (h : aluTwoOperand op a b s = .next t) :
    t.mem = s.mem ∧ t.out = s.out ∧ ∀ r, names a r = false → t.reg r = s.reg r := by
  obtain ⟨f, n, rfl⟩ | ⟨ha, hb, rfl⟩ := aluTwoOperand_next_cases h
  · exact ⟨rfl, rfl, fun _ _ => rfl⟩
  · refine ⟨State.alu_mem .., State.alu_out .., fun r hr => State.alu_reg _ _ _ _ _ (.inl ?_)⟩
    exact fun har => of_decide_eq_false hr (congrArg Fin.val har)

/-! ### The flag computation of CMP -/

theorem compareFlags_of_eq {u v : Byte} (h : u.toNat = v.toNat) : compareFlags u v = ⟨true, false, false⟩ := by
  simp [compareFlags, h]

theorem compareFlags_of_lt {u v : Byte} (h : u.toNat < v.toNat) : compareFlags u v = ⟨false, true, false⟩ := by
  simp [compareFlags, h, Nat.ne_of_lt h, Nat.le_of_lt h]

theorem compareFlags_of_gt {u v : Byte} (h : u.toNat > v.toNat) : compareFlags u v = ⟨false, false, true⟩ := by
  simp [compareFlags, h, Nat.ne_of_gt h, Nat.le_of_lt h]

/-! ### What a completed instruction leaves of the flags -/

/-- No completed instruction but CMP writes the flags (43_alu.md R99). -/
theorem completed_flags {s : State} {i : Instr} (h : ∀ a b, i ≠ .cmp a b) : (completed s i).flags = s.flags := by
  cases i with
  | cmp a b => exact absurd rfl (h a b)
  | _ => simp [completed, State.alu_flags]

/-- Every instruction but CMP leaves the flags, completing or faulting. -/
theorem exec_flags {i : Instr} {s t : State} (hi : ∀ a b, i ≠ .cmp a b) (h : exec i s = .next t) :
    t.flags = s.flags := by
  obtain ⟨f, n, -, rfl⟩ | ⟨-, rfl⟩ := exec_next_cases h
  · rfl
  · exact completed_flags hi

end Sys2Proof.Proofs

end

section
/-! The ALU instructions one by one: O15, O16, O17, O18, O19. -/

namespace Sys2Proof.Proofs
open Sys2Proof Sys2Proof.Machine Sys2Proof.Claims

/-- Settles O15: the ALU multiplies bytes, which keeps the product modulo 256. -/
theorem mulKeepsTheLowByteOfTheProduct : Obligations.MulKeepsTheLowByteOfTheProduct :=
  aluRule_of_result (op := .mult) (fun _ _ => rfl) (fun _ _ _ => rfl) (fun _ _ _ => rfl) BitVec.toNat_mul

/-- Settles O16: the ALU adds bytes, which keeps the sum modulo 256. -/
theorem addWrapsModulo256 : Obligations.AddWrapsModulo256 :=
  aluRule_of_result (op := .add) (fun _ _ => rfl) (fun _ _ _ => rfl) (fun _ _ _ => rfl) BitVec.toNat_add

/-- Settles O17: CMP completes by setting the flags its comparison computes, in each of the three cases. -/
theorem cmpSetsTheThreeFlagsUnsigned : Obligations.CmpSetsTheThreeFlagsUnsigned := by
  have hexec : ∀ a b s, exec (.cmp a b) s = aluTwoOperand .cmp a b s := fun _ _ _ => rfl
  refine ⟨fun _ _ => rfl, fun s a b ha hb hpc => ?_, twoOperandFaults_of_exec hexec⟩
  rw [hexec, aluTwoOperand_completes .cmp ha hb hpc, State.alu, advance_eq_movedTo]
  refine ⟨fun h => ?_, fun h => ?_, fun h => ?_⟩
  · rw [compareFlags_of_eq h]
    rfl
  · rw [compareFlags_of_lt h]
    rfl
  · rw [compareFlags_of_gt h]
    rfl

/-- Settles O18: the ALU's bitwise operations on bytes are those on the numbers. -/
theorem andOrXorActBitwise : Obligations.AndOrXorActBitwise :=
  ⟨aluRule_of_result (op := .and) (fun _ _ => rfl) (fun _ _ _ => rfl) (fun _ _ _ => rfl) BitVec.toNat_and,
    aluRule_of_result (op := .or) (fun _ _ => rfl) (fun _ _ _ => rfl) (fun _ _ _ => rfl) BitVec.toNat_or,
    aluRule_of_result (op := .xor) (fun _ _ => rfl) (fun _ _ _ => rfl) (fun _ _ _ => rfl) BitVec.toNat_xor⟩

/-- Exclusive or with all ones is the complement, 255 minus the byte (43_alu.md R98). -/
theorem toNat_xor_allOnes (v : Byte) : (v ^^^ 0xFF#8).toNat = 255 - v.toNat := by
  have : v ^^^ 0xFF#8 = ~~~v := BitVec.xor_allOnes
  rw [this, BitVec.toNat_not]

/-- Settles O19: with operand and successor in memory and a valid index NOT completes; its faults are those of its list
of checks. -/
theorem notComplementsEightBits : Obligations.NotComplementsEightBits := by
  refine ⟨fun _ => rfl, fun s a ha hpc => ?_, oneOperandFaults_of_checks fun _ _ => rfl⟩
  have hlen : s.pc.toNat + instrLength (.not a) ≤ 255 := Nat.add_le_add_right hpc 2
  have hregs : ∀ b ∈ registerOperands (.not a), b.toNat ≤ 7 := by
    simpa [registerOperands] using Nat.le_of_lt_succ ha
  rw [exec_eq_completed hlen hregs rfl, completed, operandReg_of_lt ha, State.alu, setReg_advance_eq_wrote,
    toNat_xor_allOnes]

end Sys2Proof.Proofs

end

section
/-! What the ALU leaves unchanged: O20. -/

namespace Sys2Proof.Proofs
open Sys2Proof Sys2Proof.Machine

/-- A step that changes a flag ran a CMP: a stopped step and a fault of the decoder leave the flags. -/
theorem exists_cmp_of_step_flags_ne {s t : State} (h : step s = .next t) (hne : t.flags ≠ s.flags) :
    ∃ a b, decode s.fetchBytes = .ok (.cmp a b, []) := by
  obtain ⟨-, rfl⟩ | ⟨-, e, -, rfl⟩ | ⟨-, i, hd, hexec⟩ := step_next_cases h
  · exact absurd rfl hne
  · obtain ⟨f, n, hr⟩ := raiseDecode_eq_raise s e
    rw [hr] at hne
    exact absurd rfl hne
  · by_contra hcmp
    push Not at hcmp
    exact hne (exec_flags (fun a b hi => hcmp a b (hi ▸ hd)) hexec)

/-- Settles O20: no other instruction completes with other flags, and a fault keeps them; what ADD and MUL leave is the
frame of the two-operand ALU instructions. -/
theorem onlyCmpWritesFlags : Obligations.OnlyCmpWritesFlags := by
  refine ⟨fun i s t => exec_flags, fun s t => exists_cmp_of_step_flags_ne, fun s t a b h => ?_⟩
  obtain h | h := h
  · obtain ⟨hmem, hout, hreg⟩ := aluTwoOperand_frame (op := .add) h
    exact ⟨hmem, hout, exec_flags (i := .add a b) nofun h, hreg⟩
  · obtain ⟨hmem, hout, hreg⟩ := aluTwoOperand_frame (op := .mult) h
    exact ⟨hmem, hout, exec_flags (i := .mul a b) nofun h, hreg⟩

end Sys2Proof.Proofs

end

section
/-! SUPPORT. The instructions with one register operand and a stack check, the stack pointer's two moves, and what the
claims' word `wrote` says about a state. -/

namespace Sys2Proof.Proofs
open Sys2Proof Sys2Proof.Machine Sys2Proof.Claims

/-! ### Two-byte instructions with a stack check -/

/-- The faults of a two-byte instruction with one register operand, a stack check and a successor check, in the order of
40_execution_cycle.md R68, stages 3 to 6. -/
theorem stackCheckedFaults_of_checks {s : State} {i : Instr} {a : Byte}
    (h : checks s i =
      [addressCheck (s.pc.toNat + 1), indexCheck a, stackCheck s i, addressCheck (s.pc.toNat + 2)]) :
    (s.pc.toNat = 255 → exec i s = .next (s.raise .addressOutOfRange 256)) ∧
    (s.pc.toNat ≤ 254 → 8 ≤ a.toNat → exec i s = .next (s.raise .invalidRegisterIndex a.toNat)) ∧
    (∀ f, s.pc.toNat ≤ 254 → a.toNat ≤ 7 → stackFault s i = some f → exec i s = .next (s.raise f 0)) ∧
    (s.pc.toNat = 254 → a.toNat ≤ 7 → stackFault s i = none → exec i s = .next (s.raise .addressOutOfRange 256)) := by
  refine ⟨fun hpc => exec_eq_raise_of_checks ?_, fun hpc ha => exec_eq_raise_of_checks ?_,
    fun f hpc ha hstack => exec_eq_raise_of_checks ?_, fun hpc ha hstack => exec_eq_raise_of_checks ?_⟩
  · rw [h, addressCheck_of_gt (by omega)]
    rfl
  · rw [h, addressCheck_of_le (by omega), indexCheck_of_gt ha]
    rfl
  · rw [h, addressCheck_of_le (by omega), indexCheck_of_le ha, stackCheck, hstack]
    rfl
  · rw [h, addressCheck_of_le (by omega), indexCheck_of_le ha, stackCheck, hstack, addressCheck_of_gt (by omega)]
    rfl

/-- Such an instruction whose stack check is the push's has the faults of 44_stack.md R108 and 45_control.md R116. -/
theorem pushingFaults_of_checks {mk : Byte → Instr}
    (hchecks : ∀ s a, checks s (mk a) =
      [addressCheck (s.pc.toNat + 1), indexCheck a, stackCheck s (mk a), addressCheck (s.pc.toNat + 2)])
    (hstack : ∀ s a, stackFault s (mk a) = if s.sp.toNat = 0 then some .stackOverflow else none) :
    PushingFaults mk := by
  intro s a
  obtain ⟨hoperand, hindex, hfull, hsuccessor⟩ := stackCheckedFaults_of_checks (hchecks s a)
  exact ⟨hoperand, hindex, fun hpc ha hsp => hfull _ hpc ha ((hstack s a).trans (if_pos hsp)),
    fun hpc ha hsp => hsuccessor hpc ha ((hstack s a).trans (if_neg hsp))⟩

/-- With operand and successor in memory, a valid index and no stack fault a two-byte instruction completes. -/
theorem exec_eq_completed_of_oneOperand {s : State} {i : Instr} {a : Byte} (hlen : instrLength i = 2)
    (hregs : registerOperands i = [a]) (hpc : s.pc.toNat ≤ 253) (ha : a.toNat < 8) (hstack : stackFault s i = none) :
    exec i s = .next (completed s i) := by
  refine exec_eq_completed (by omega) (fun b hb => ?_) hstack
  rw [hregs, List.mem_singleton] at hb
  exact hb ▸ Nat.le_of_lt_succ ha

/-! ### The two moves of the stack pointer -/

theorem pushAddr_toNat {s : State} (h : s.sp.toNat ≠ 0) : s.pushAddr.toNat = s.sp.toNat - 1 := by
  show (s.sp - 1#8).toNat = s.sp.toNat - 1
  bv_omega

theorem push_sp (s : State) (value : State → Byte) : (s.push value).sp = s.pushAddr :=
  (State.push_reg ..).trans (if_pos rfl)

/-- The incremented stack pointer as the number the rule computes, taken to 8 bits (44_stack.md R107). -/
theorem incSp_eq_setReg (s : State) : s.incSp = s.setReg Config.spIndex (BitVec.ofNat 8 (s.sp.toNat + 1)) := by
  rw [State.incSp, BitVec.ofNat_add, BitVec.ofNat_toNat, BitVec.setWidth_eq]
  rfl

theorem incSp_advance_eq_wrote (s : State) (n : Nat) :
    s.incSp.advance n = wrote s Config.spIndex (s.sp.toNat + 1) (s.pc.toNat + n) := by
  rw [advance_eq_movedTo, incSp_eq_setReg]
  rfl

/-! ### Reading a state given by `wrote` -/

section
variable (s : State) (r j : RegIdx) (u : Byte) (v p : Nat)

theorem wrote_reg : (wrote s r v p).reg j = if r = j then BitVec.ofNat 8 v else s.reg j :=
  State.setReg_reg s r j (BitVec.ofNat 8 v)

theorem wrote_setReg_same : wrote (s.setReg r u) r v p = wrote s r v p :=
  congrArg (State.setPc · (BitVec.ofNat 8 p)) (setReg_setReg_same (s := s) (i := r))

theorem wrote_sp : (wrote s 7 v p).sp = BitVec.ofNat 8 v := (wrote_reg s 7 7 v p).trans (if_pos rfl)

end

end Sys2Proof.Proofs

end

section
/-! The stack: O21, O22, O23. -/

namespace Sys2Proof.Proofs
open Sys2Proof Sys2Proof.Machine Sys2Proof.Claims

/-! ### PUSH -/

/-- What a completed PUSH stores, its operand read after the decrement (44_stack.md R108). -/
theorem completed_push_memRead_pushAddr (s : State) {a : Byte} (ha : a.toNat < 8) :
    (completed s (.push a)).memRead s.pushAddr = if a.toNat = 7 then s.pushAddr else s.reg ⟨a.toNat, ha⟩ := by
  have hread : (completed s (.push a)).memRead s.pushAddr = s.decSp.reg (operandReg a) :=
    (State.push_memRead s (State.reg · (operandReg a)) s.pushAddr).trans (if_pos rfl)
  rw [hread, State.decSp_reg, ← operandReg_of_lt ha]
  exact if_congr (eq_comm.trans (operandReg_eq_spIndex a)) rfl rfl

/-- Settles O21: what a completed PUSH stores, leaves and moves, with room below the stack pointer; its faults are those
of its list of checks. -/
theorem pushStoresBelowTheStackPointer : Obligations.PushStoresBelowTheStackPointer := by
  refine ⟨fun _ => rfl, fun s a ha hpc hsp => ?_, pushingFaults_of_checks (fun _ _ => rfl) fun _ _ => rfl⟩
  have hvalid : ∀ b ∈ registerOperands (.push a), b.toNat ≤ 7 := by
    simpa [registerOperands] using Nat.le_of_lt_succ ha
  have hnext : (completed s (.push a)).pc.toNat = s.pc.toNat + 2 := by
    show (s.pc + 2#8).toNat = s.pc.toNat + 2
    bv_omega
  have hcells : ∀ k, k ≠ s.pushAddr → (completed s (.push a)).memRead k = s.memRead k := fun k hk =>
    completed_memRead_other fun h => hk (Option.some.inj h).symm
  exact ⟨completed s (.push a), exec_eq_completed_of_oneOperand rfl rfl hpc ha (if_neg hsp), hnext, pushAddr_toNat hsp,
    push_sp s (State.reg · (operandReg a)), fun r hr => completed_reg hvalid (decide_eq_false hr),
    completed_push_memRead_pushAddr s ha, hcells, rfl, rfl, rfl, rfl⟩

/-! ### POP -/

theorem stackFault_pop_of_ne {s : State} {a : Byte} (ha : a.toNat ≠ 7) :
    stackFault s (.pop a) = if s.sp.toNat = 255 then some .stackUnderflow else none := if_neg ha

theorem stackFault_pop_of_eq {s : State} {a : Byte} (ha : a.toNat = 7) :
    stackFault s (.pop a) = if (s.memRead s.sp).toNat = 255 then some .stackUnderflow else none := if_pos ha

/-- POP increments the stack pointer that the write of `x[a]` left (44_stack.md R109). -/
theorem completed_pop_eq_wrote (s : State) (a : Byte) :
    completed s (.pop a) = wrote (s.setReg (operandReg a) s.popValue) Config.spIndex
      ((s.setReg (operandReg a) s.popValue).sp.toNat + 1) (s.pc.toNat + 2) :=
  incSp_advance_eq_wrote ..

/-- Settles O22: for `a` below 7 the write of `x[a]` leaves the stack pointer to be incremented, for `a = 7` the popped
value takes its place; the faults are those of POP's list of checks. -/
theorem popLoadsAndMovesTheStackPointer : Obligations.PopLoadsAndMovesTheStackPointer := by
  refine ⟨fun _ => rfl, fun s a ha hpc hne hsp => ?_, fun s a hpc ha hv => ?_, fun s a => ?_⟩
  · have hstack : stackFault s (.pop a) = none := (stackFault_pop_of_ne hne).trans (if_neg hsp)
    have hother : operandReg a ≠ Config.spIndex := mt (operandReg_eq_spIndex a).mp hne
    rw [exec_eq_completed_of_oneOperand rfl rfl hpc ha hstack, completed_pop_eq_wrote, sp_setReg hother,
      operandReg_of_lt ha]
    rfl
  · have hstack : stackFault s (.pop a) = none := (stackFault_pop_of_eq ha).trans (if_neg hv)
    rw [exec_eq_completed_of_oneOperand rfl rfl hpc (by omega) hstack, completed_pop_eq_wrote,
      (operandReg_eq_spIndex a).mpr ha, wrote_setReg_same, State.sp_eq, State.setReg_reg_same]
    rfl
  · obtain ⟨hoperand, hindex, hempty, hsuccessor⟩ := stackCheckedFaults_of_checks (s := s) (i := .pop a) (a := a) rfl
    exact ⟨hoperand, hindex,
      fun hpc ha hsp => hempty _ hpc ha.le ((stackFault_pop_of_ne ha.ne).trans (if_pos hsp)),
      fun hpc ha hv => hempty _ hpc ha.le ((stackFault_pop_of_eq ha).trans (if_pos hv)),
      fun hpc ha hsp => hsuccessor hpc ha.le ((stackFault_pop_of_ne ha.ne).trans (if_neg hsp)),
      fun hpc ha hv => hsuccessor hpc ha.le ((stackFault_pop_of_eq ha).trans (if_neg hv))⟩

/-! ### PUSH, then POP -/

/-- Settles O23: the POP reads, at the stack pointer the PUSH left, the value the PUSH stored, and moves it back up. -/
theorem pushThenPopRoundTrips : Obligations.PushThenPopRoundTrips := by
  intro s a c ha hc hsp hpc
  obtain ⟨-, hpush, -⟩ := pushStoresBelowTheStackPointer
  obtain ⟨-, hpop, -⟩ := popLoadsAndMovesTheStackPointer
  obtain ⟨t, ht, htpc, haddr, htsp, htreg, htcell, htother, htcontrol⟩ := hpush s a (by omega) (by omega) hsp
  rw [if_neg ha.ne] at htcell
  have hpopped : t.memRead t.sp = s.reg ⟨a.toNat, by omega⟩ := htsp ▸ htcell
  have hroom : t.sp.toNat ≠ 255 := by
    rw [htsp, haddr]
    have := s.sp.isLt
    omega
  have hrestored : BitVec.ofNat 8 (t.sp.toNat + 1) = s.sp := by
    rw [htsp, haddr, Nat.sub_add_cancel (Nat.pos_of_ne_zero hsp), BitVec.ofNat_toNat, BitVec.setWidth_eq]
  have hu : exec (.pop c) t = .next (wrote (t.setReg ⟨c.toNat, by omega⟩ (t.memRead t.sp)) 7 (t.sp.toNat + 1)
      (t.pc.toNat + 2)) := hpop t c (by omega) (by omega) hc.ne hroom
  refine ⟨t, _, ht, hu, ?_, (wrote_sp ..).trans hrestored, fun r hr => ?_, htcell, htother, ?_, htcontrol⟩
  · have hc7 : (7 : RegIdx) ≠ ⟨c.toNat, by omega⟩ := fun h => hc.ne (congrArg Fin.val h).symm
    rw [wrote_reg, if_neg hc7, State.setReg_reg_same, hpopped]
  · by_cases h7 : r = 7
    · subst h7
      exact (wrote_sp ..).trans hrestored
    · have hcr : (⟨c.toNat, by omega⟩ : RegIdx) ≠ r := fun h => of_decide_eq_false hr (congrArg Fin.val h)
      rw [wrote_reg, if_neg (Ne.symm h7), State.setReg_reg_other _ _ _ _ hcr, htreg r h7]
  · show (BitVec.ofNat 8 (t.pc.toNat + 2)).toNat = s.pc.toNat + 4
    rw [BitVec.toNat_ofNat, htpc]
    omega

end Sys2Proof.Proofs

end

section
/-! SUPPORT. The jumps as one rule, from what `jumpIf` can do (45_control.md section 2). -/

namespace Sys2Proof.Proofs
open Sys2Proof Sys2Proof.Machine Sys2Proof.Claims

theorem setPc_eq_movedTo (s : State) (p : Addr) : s.setPc p = movedTo s p.toNat := by
  rw [movedTo, BitVec.ofNat_toNat, BitVec.setWidth_eq]
  rfl

/-- A jump whose condition holds goes to its register, its successor's place never looked at (40_execution_cycle.md
R68). -/
theorem jumpIf_of_taken {taken : Bool} {s : State} {a : Byte} (ha : a.toNat < 8) (hpc : s.pc.toNat ≤ 254)
    (h : taken = true) : jumpIf taken a s = .next (movedTo s (s.reg ⟨a.toNat, ha⟩).toNat) := by
  rw [jumpIf_eq, if_neg (by omega), dif_pos ha, if_pos h, setPc_eq_movedTo]

/-- A jump whose condition does not hold goes on to the next instruction. -/
theorem jumpIf_of_not_taken {taken : Bool} {s : State} {a : Byte} (ha : a.toNat < 8) (hpc : s.pc.toNat ≤ 253)
    (h : taken = false) : jumpIf taken a s = .next (movedTo s (s.pc.toNat + 2)) := by
  rw [jumpIf_eq, if_neg (by omega), dif_pos ha, if_neg (Bool.eq_false_iff.mp h), if_neg (by omega), advance_eq_movedTo]

/-- The faults of a jump, in order; the successor is looked at only when the jump is not taken. -/
theorem jumpIf_faults (taken : Bool) (s : State) (a : Byte) :
    (s.pc.toNat = 255 → jumpIf taken a s = .next (s.raise .addressOutOfRange 256)) ∧
    (s.pc.toNat ≤ 254 → 8 ≤ a.toNat → jumpIf taken a s = .next (s.raise .invalidRegisterIndex a.toNat)) ∧
    (s.pc.toNat = 254 → a.toNat ≤ 7 → taken = false → jumpIf taken a s = .next (s.raise .addressOutOfRange 256)) := by
  rw [jumpIf_eq]
  refine ⟨fun hpc => if_pos hpc, fun hpc ha => ?_, fun hpc ha h => ?_⟩
  · rw [if_neg (by omega), dif_neg (by omega)]
  · rw [if_neg (by omega), dif_pos (by omega), if_neg (Bool.eq_false_iff.mp h), if_pos hpc]

/-- An instruction that is a jump on a condition on E has the rule of a conditional jump. -/
theorem jumpRule_of_exec {mk : Byte → Instr} {opcode : Byte} {taken : Bool → Bool}
    (henc : ∀ a, encode (mk a) = [opcode, a]) (hexec : ∀ a s, exec (mk a) s = jumpIf (taken s.flags.e) a s) :
    JumpRule mk opcode taken := by
  refine ⟨henc, fun s a ha hpc h => ?_, fun s a ha hpc h => ?_, fun s a => ?_⟩
  · rw [hexec, jumpIf_of_taken ha hpc h]
  · rw [hexec, jumpIf_of_not_taken (Nat.lt_succ_of_le ha) hpc h]
  · rw [hexec]
    exact jumpIf_faults _ s a

end Sys2Proof.Proofs

end

section
/-! The jumps: O28, O29, O30, O31. -/

namespace Sys2Proof.Proofs
open Sys2Proof Sys2Proof.Machine Sys2Proof.Claims

/-- Settles O28: JMP is the jump that is always taken, so its successor's place is never looked at. -/
theorem jmpGoesToItsRegister : Obligations.JmpGoesToItsRegister := by
  refine ⟨fun _ => rfl, fun s a ha hpc => jumpIf_of_taken ha hpc rfl, fun s a => ?_⟩
  obtain ⟨hoperand, hindex, -⟩ := jumpIf_faults true s a
  exact ⟨hoperand, hindex⟩

/-- Settles O29: JEQ is the jump on E. -/
theorem jeqJumpsExactlyWhenEqual : Obligations.JeqJumpsExactlyWhenEqual :=
  jumpRule_of_exec (fun _ => rfl) fun _ _ => rfl

/-- Settles O30: JNE is the jump on the complement of E. -/
theorem jneJumpsExactlyWhenNotEqual : Obligations.JneJumpsExactlyWhenNotEqual :=
  jumpRule_of_exec (fun _ => rfl) fun _ _ => rfl

/-- What a completed CMP leaves to a jump: the registers, the next instruction, and in E whether the two are equal. -/
theorem exec_cmp_next {s : State} {a b : Byte} (ha : a.toNat < 8) (hb : b.toNat < 8) (hpc : s.pc.toNat ≤ 252) :
    ∃ t, exec (.cmp a b) s = .next t ∧ t.pc.toNat = s.pc.toNat + 3 ∧ (∀ r, t.reg r = s.reg r) ∧
      t.flags.e = decide (s.reg ⟨a.toNat, ha⟩ = s.reg ⟨b.toNat, hb⟩) := by
  refine ⟨_, aluTwoOperand_completes .cmp ha hb hpc, ?_, fun _ => rfl, decide_eq_decide.mpr BitVec.toNat_eq.symm⟩
  show (s.pc + 3#8).toNat = s.pc.toNat + 3
  bv_omega

/-- Settles O31: CMP leaves in E what the two jumps look at, and in the registers where they go. -/
theorem cmpThenJumpFollowsEquality : Obligations.CmpThenJumpFollowsEquality := by
  intro s a b c ha hb hc hpc
  obtain ⟨-, hjeqTaken, hjeqNotTaken, -⟩ := jeqJumpsExactlyWhenEqual
  obtain ⟨-, hjneTaken, hjneNotTaken, -⟩ := jneJumpsExactlyWhenNotEqual
  obtain ⟨t, ht, htpc, htreg, hflag⟩ := exec_cmp_next ha hb (s := s) (by omega)
  have hnext : t.pc.toNat + 2 = s.pc.toNat + 5 := by omega
  rw [← hnext, ← htreg ⟨c.toNat, hc⟩]
  refine ⟨t, ht, fun heq => ?_, fun hne => ?_⟩
  · have he : t.flags.e = true := hflag.trans (decide_eq_true heq)
    exact ⟨hjeqTaken t c hc (by omega) he, hjneNotTaken t c (by omega) (by omega) (congrArg not he)⟩
  · have he : t.flags.e = false := hflag.trans (decide_eq_false hne)
    exact ⟨hjeqNotTaken t c (by omega) (by omega) he, hjneTaken t c hc (by omega) (congrArg not he)⟩

end Sys2Proof.Proofs

end

section
/-! CALL and RET: O25, O26, O27. -/

namespace Sys2Proof.Proofs
open Sys2Proof Sys2Proof.Machine Sys2Proof.Claims

/-- Where a completed CALL goes, its operand read after the push (45_control.md R116). -/
theorem completed_call_pc (s : State) {a : Byte} (ha : a.toNat < 8) :
    (completed s (.call a)).pc = if a.toNat = 7 then s.pushAddr else s.reg ⟨a.toNat, ha⟩ :=
  (completed_goesTo (i := .call a) rfl ⟨a.toNat, ha⟩ (decide_eq_true rfl)).trans (if_congr Fin.ext_iff rfl rfl)

/-- What a completed CALL stores: the address of the instruction after it (45_control.md R116). -/
theorem completed_call_memRead_pushAddr (s : State) (a : Byte) :
    (completed s (.call a)).memRead s.pushAddr = s.pc + 2 :=
  (State.push_memRead s (fun _ => s.pc + 2) s.pushAddr).trans (if_pos rfl)

/-- Settles O25: where a completed CALL goes, what it stores, leaves and moves, with room below the stack pointer; its
faults are those of its list of checks. -/
theorem callPushesTheReturnAddressAndJumps : Obligations.CallPushesTheReturnAddressAndJumps := by
  refine ⟨fun _ => rfl, fun s a ha hpc hsp => ?_, pushingFaults_of_checks (fun _ _ => rfl) fun _ _ => rfl⟩
  have hvalid : ∀ b ∈ registerOperands (.call a), b.toNat ≤ 7 := by
    simpa [registerOperands] using Nat.le_of_lt_succ ha
  have hreturn : ((completed s (.call a)).memRead s.pushAddr).toNat = s.pc.toNat + 2 := by
    rw [completed_call_memRead_pushAddr]
    show (s.pc + 2#8).toNat = s.pc.toNat + 2
    bv_omega
  have hcells : ∀ k, k ≠ s.pushAddr → (completed s (.call a)).memRead k = s.memRead k := fun k hk =>
    completed_memRead_other fun h => hk (Option.some.inj h).symm
  exact ⟨completed s (.call a), exec_eq_completed_of_oneOperand rfl rfl hpc ha (if_neg hsp), completed_call_pc s ha,
    pushAddr_toNat hsp, push_sp s fun _ => s.pc + 2, fun r hr => completed_reg hvalid (decide_eq_false hr), hreturn, hcells,
    rfl, rfl, rfl, rfl⟩

/-- RET in the words of its claim: the stack pointer up by 1, the byte at it in the program counter (45_control.md
R117). -/
theorem completed_ret_eq_wrote (s : State) :
    completed s .ret = wrote s 7 (s.sp.toNat + 1) (s.memRead s.sp).toNat := by
  rw [completed, incSp_eq_setReg, setPc_eq_movedTo]
  rfl

/-- RET's one check is the stack check: a one-byte instruction lies in memory at every address. -/
theorem firstFault_ret (s : State) :
    firstFault s .ret = if s.sp.toNat = 255 then some (.stackUnderflow, 0) else none := by
  have hplace : addressCheck s.pc.toNat = none := addressCheck_of_le (Nat.le_of_lt_succ s.pc.isLt)
  have hchecks : checks s .ret = [addressCheck s.pc.toNat, stackCheck s .ret, none] := rfl
  rw [firstFault_eq_findSome?, hchecks, hplace, stackCheck, stackFault]
  split <;> rfl

/-- Settles O26: RET's one check is that of the stack pointer, at every address. -/
theorem retJumpsToThePoppedByte : Obligations.RetJumpsToThePoppedByte := by
  refine ⟨rfl, fun s hsp => ?_, fun s hsp => ?_⟩
  · rw [exec_eq, firstFault_ret, if_neg hsp, ← completed_ret_eq_wrote]
    rfl
  · rw [exec_eq, firstFault_ret, if_pos hsp]
    rfl

/-- Settles O27: the stack pointer CALL leaves is below 255, so RET reads the saved byte there and moves it back up. -/
theorem callThenRetReturnsAfterTheCall : Obligations.CallThenRetReturnsAfterTheCall := by
  intro s a ha hpc hsp
  obtain ⟨-, hcall, -⟩ := callPushesTheReturnAddressAndJumps
  obtain ⟨-, hret, -⟩ := retJumpsToThePoppedByte
  obtain ⟨t, ht, -, haddr, htsp, -, hsaved, -⟩ := hcall s a (by omega) hpc hsp
  refine ⟨t, ht, fun u husp hucell => ?_⟩
  have hdec : u.sp.toNat + 1 = s.sp.toNat := by
    rw [husp, htsp, haddr]
    omega
  have hroom : u.sp.toNat ≠ 255 := by
    have := s.sp.isLt
    omega
  have hpopped : (u.memRead u.sp).toNat = s.pc.toNat + 2 := by rw [hucell, htsp, hsaved]
  refine ⟨_, hret u hroom, ?_, ?_⟩
  · show (BitVec.ofNat 8 (u.memRead u.sp).toNat).toNat = s.pc.toNat + 2
    rw [BitVec.ofNat_toNat, BitVec.setWidth_eq, hpopped]
  · rw [wrote_sp, hdec, BitVec.ofNat_toNat, BitVec.setWidth_eq]

end Sys2Proof.Proofs

end

section
/-! SUPPORT. Cells a Load does not reach, and an accepted sequence of host operations. -/

namespace Sys2Proof.Proofs
open Sys2Proof Sys2Proof.Machine

/-- A cell above the last written byte is as before. -/
theorem writeBytes_memRead_of_ge {s : State} {k : Nat} {a : Addr} {bs : List Byte} (h : k + bs.length ≤ a.toNat) :
    (s.writeBytes k bs).memRead a = s.memRead a := by
  induction bs generalizing s k with
  | nil => rfl
  | cons b bs ih =>
    rw [List.length_cons] at h
    rw [State.writeBytes]
    split
    · next hk =>
      have hne : BitVec.ofNat 8 k ≠ a := fun hka => by
        rw [← hka, BitVec.toNat_ofNat] at h
        omega
      rw [ih (by omega), State.memRead_memWrite, if_neg hne]
    · rfl

/-- A sequence of host operations is accepted exactly when its first operation and then the others are. -/
theorem hostOps_cons_next_iff {op : HostOp} {ops : List HostOp} {h h' : Session} :
    hostOps (op :: ops) h = .next h' ↔ ∃ u, hostOp op h = .next u ∧ hostOps ops u = .next h' := by
  cases hop : hostOp op h <;> simp [hostOps, hop]

/-- Load and Run from the reset session leave the reset engine with the bytes copied and `running` set
(70_reset_and_hazards.md R161, R163, R165). -/
theorem engine_of_load_run {bytes : List Byte} {h : Session}
    (hops : hostOps [.load bytes, .run] Session.start = .next h) : h.engine = (State.reset.loadBytes bytes).start := by
  obtain ⟨u, hload, hrest⟩ := hostOps_cons_next_iff.mp hops
  obtain ⟨v, hrun, hend⟩ := hostOps_cons_next_iff.mp hrest
  obtain ⟨-, -, -, rfl⟩ := hostLoad_next_iff.mp hload
  obtain ⟨-, -, rfl⟩ := hostRun_next_iff.mp hrun
  cases hend
  rfl

end Sys2Proof.Proofs

end

section
/-! Faults: O9, O41, O44, O47. -/

namespace Sys2Proof.Proofs
open Sys2Proof Sys2Proof.Machine

/-- Settles O9: of all that a step can do, only a `raise` on the old state changes the record. -/
theorem faultChangesOnlyRunningAndRecord : Obligations.FaultChangesOnlyRunningAndRecord := by
  intro s t h hne
  obtain ⟨-, rfl⟩ | ⟨hrun, e, -, rfl⟩ | ⟨hrun, i, -, hi⟩ := step_next_cases h
  · exact absurd rfl hne
  · obtain ⟨f, n, he⟩ := raiseDecode_eq_raise s e
    exact ⟨hrun, f, n, he⟩
  · obtain ⟨f, n, -, rfl⟩ | ⟨-, rfl⟩ := exec_next_cases hi
    · exact ⟨hrun, f, n, rfl⟩
    · exact absurd (completed_fault s i) hne

/-- Settles O41: under the invariant a recorded fault means a stopped engine, and a stopped engine stays as it is. -/
theorem recordedFaultIsFinal : Obligations.RecordedFaultIsFinal := by
  intro s r k hs hr
  obtain ⟨hstopped, -⟩ := hs.fault r hr
  exact core_run_of_stopped hstopped k

/-- Settles O44: the reset state holds no record, and a `raise` records its cause. -/
theorem faultCodesAreTheTable : Obligations.FaultCodesAreTheTable :=
  ⟨rfl, fun _ _ => ⟨rfl, rfl, rfl, rfl, rfl, rfl⟩⟩

/-- Settles O47: the cell after the last loaded byte still holds its reset value, and 0 is no opcode. -/
theorem runningOffTheEndFaults : Obligations.RunningOffTheEndFaults := by
  intro bytes h s _ hops hmem hrun hpc
  have hreset : s.memRead s.pc = 0x00#8 := calc
    s.memRead s.pc = (State.reset.writeBytes 0 bytes).memRead s.pc := by
      rw [State.memRead, hmem, engine_of_load_run hops]
      rfl
    _ = State.reset.memRead s.pc := writeBytes_memRead_of_ge (by omega)
    _ = 0x00#8 := rfl
  obtain ⟨hfault, -, hzero⟩ := invalidOpcodeFaultsAtOnce
  have hstep := hfault s hrun (hreset ▸ hzero)
  rwa [hreset] at hstep

end Sys2Proof.Proofs

end

section
/-! SUPPORT. What the host operations answer, case by case, and the memory and the bytes fetched after a Load. -/

namespace Sys2Proof.Proofs
open Sys2Proof Sys2Proof.Machine

/-! ### Refusals and acceptances of the host operations -/

section
variable {h : Session}

/-- While the engine runs the host has no move (70_reset_and_hazards.md R168). -/
theorem host_refused_of_running (hrun : h.engine.running = true) :
    hostReset h = .refused .engineRunning ∧ hostRun h = .refused .engineRunning ∧
      hostObserve h = .refused .engineRunning ∧ ∀ bytes, hostLoad bytes h = .refused .engineRunning :=
  ⟨if_pos hrun, if_pos hrun, if_pos hrun, fun _ => if_pos hrun⟩

variable (hstopped : h.engine.running = false)
include hstopped

theorem hostRun_refused_of_phase_ne (hphase : h.phase ≠ .loaded) : hostRun h = .refused .outOfSequence := by
  rw [hostRun, hstopped, if_neg Bool.false_ne_true, if_neg hphase]

theorem hostObserve_refused_of_phase_ne (hphase : h.phase ≠ .started) : hostObserve h = .refused .outOfSequence := by
  rw [hostObserve, hstopped, if_neg Bool.false_ne_true, if_neg hphase]

theorem hostLoad_refused_of_started (hphase : h.phase = .started) (bytes : List Byte) :
    hostLoad bytes h = .refused .outOfSequence := by
  rw [hostLoad, hstopped, if_neg Bool.false_ne_true, if_pos hphase]

theorem hostLoad_refused_of_tooLarge (hphase : h.phase ≠ .started) {bytes : List Byte}
    (hlen : bytes.length > Config.memSize) : hostLoad bytes h = .refused .programTooLarge := by
  rw [hostLoad, hstopped, if_neg Bool.false_ne_true, if_neg hphase, if_pos hlen]

end

/-- Load and Run are accepted right after reset, for at most 256 bytes (70_reset_and_hazards.md R162, R163, R165). -/
theorem hostOps_load_run {bytes : List Byte} (hlen : bytes.length ≤ Config.memSize) :
    hostOps [.load bytes, .run] Session.start = .next ⟨(State.reset.loadBytes bytes).start, .started⟩ := by
  have hload : hostLoad bytes Session.start = .next ⟨State.reset.loadBytes bytes, .loaded⟩ :=
    hostLoad_next_iff.mpr ⟨rfl, by decide, hlen, rfl⟩
  have hstopped : (State.reset.loadBytes bytes).running = false := by
    rw [State.loadBytes, writeBytes_eq]
    rfl
  have hrun : hostRun ⟨State.reset.loadBytes bytes, .loaded⟩ = .next ⟨(State.reset.loadBytes bytes).start, .started⟩ :=
    hostRun_next_iff.mpr ⟨hstopped, rfl, rfl⟩
  exact hostOps_cons_next_iff.mpr ⟨_, hload, hostOps_cons_next_iff.mpr ⟨_, hrun, rfl⟩⟩

/-! ### The memory after a Load -/

/-- After the copy of Load a cell holds the array's byte of its number, or what it held where the array has none. -/
theorem loadBytes_memRead (s : State) (bytes : List Byte) (k : Addr) :
    (s.loadBytes bytes).memRead k = (bytes[k.toNat]?).getD (s.memRead k) := by
  cases hb : bytes[k.toNat]? with
  | none =>
    have hlen : bytes.length ≤ k.toNat := List.getElem?_eq_none_iff.mp hb
    exact writeBytes_memRead_of_ge (by omega)
  | some b =>
    have hread := writeBytes_memRead (s := s) (k := 0) hb (by omega)
    rwa [Nat.zero_add, BitVec.ofNat_toNat, BitVec.setWidth_eq] at hread

/-- A loaded array that begins with an instruction's encoding is fetched at address 0 as that encoding. -/
theorem fetchBytes_of_loadBytes {s : State} {i : Instr} {rest : List Byte} (hpc : s.pc = 0x00#8)
    (hlen : (encode i ++ rest).length ≤ 256) : (s.loadBytes (encode i ++ rest)).start.fetchBytes = encode i := by
  have hzero : (s.loadBytes (encode i ++ rest)).start.pc.toNat = 0 := by
    rw [State.loadBytes, writeBytes_eq]
    exact congrArg BitVec.toNat hpc
  refine fetchBytes_eq_encode fun j b hb => ?_
  have hjlen : j < (encode i).length := (List.getElem?_eq_some_iff.mp hb).1
  have hj : 0 + j ≤ 255 := by
    rw [List.length_append] at hlen
    omega
  have hloaded : (encode i ++ rest)[j]? = some b := by rw [List.getElem?_append_left hjlen, hb]
  rw [hzero]
  exact ⟨hj, writeBytes_memRead hloaded hj⟩

/-! ### The causes of faults -/

/-- No check of stages 3 to 6 raises UnsupportedOperation (43_alu.md R101). -/
theorem firstFault_ne_unsupportedOperation {s : State} {i : Instr} {f : Fault} {n : Nat}
    (h : firstFault s i = some (f, n)) : f ≠ .unsupportedOperation := by
  obtain ⟨rfl, -⟩ | ⟨rfl, -⟩ | ⟨-, hstack⟩ := firstFault_some_cases h
  · decide
  · decide
  · obtain ⟨rfl, -⟩ | ⟨rfl, -⟩ := stackFault_some_cases hstack <;> decide

/-- The faults of bytes that do not decode, of stages 2 and 3, are never UnsupportedOperation. -/
theorem exists_raise_of_raiseDecode (s : State) (e : DecodeError) :
    ∃ f n, f ≠ .unsupportedOperation ∧ s.raiseDecode e = s.raise f n := by
  cases e with
  | invalidOpcode op => exact ⟨.invalidInstruction, op.toNat, by decide, rfl⟩
  | missingBytes => exact ⟨.addressOutOfRange, 256, by decide, rfl⟩

end Sys2Proof.Proofs

end

section
/-! Reset, Load, Run, and the end of a run: O42, O45, O46, O48. -/

namespace Sys2Proof.Proofs
open Sys2Proof Sys2Proof.Machine

/-- Settles O42: of all that a step of a running engine can do, only a fault and a completed HLT clear `running`. -/
theorem runEndsOnlyByHltOrFault : Obligations.RunEndsOnlyByHltOrFault := by
  intro s t hrun hstep hend
  obtain ⟨hstopped, -⟩ | ⟨-, e, -, rfl⟩ | ⟨-, i, hd, hi⟩ := step_next_cases hstep
  · simp [hrun] at hstopped
  · exact .inr (exists_raise_of_raiseDecode s e)
  · obtain ⟨f, n, hf, rfl⟩ | ⟨-, rfl⟩ := exec_next_cases hi
    · exact .inr ⟨f, n, firstFault_ne_unsupportedOperation hf, rfl⟩
    · have hhlt : i = .hlt := by
        by_contra hne
        simp [completed_running hne, hrun] at hend
      subst hhlt
      exact .inl ⟨hd, rfl⟩

/-- Settles O45: the length is checked before any write, and an accepted Load is the copy. -/
theorem loadCopiesFromAddressZero : Obligations.LoadCopiesFromAddressZero := by
  intro bytes h hstopped hphase
  refine ⟨hostLoad_refused_of_tooLarge hstopped hphase, fun hlen => ⟨h.engine.loadBytes bytes, ?_, ?_, ?_⟩⟩
  · exact hostLoad_next_iff.mpr ⟨hstopped, hphase, hlen, rfl⟩
  · exact loadBytes_memRead h.engine bytes
  · exact writeBytes_eq h.engine 0 bytes

/-- Settles O46: after Load and Run the program counter is still 0, where the array's first bytes are fetched. -/
theorem loadedProgramStartsAtItsFirstByte : Obligations.LoadedProgramStartsAtItsFirstByte := by
  intro i rest hlen
  refine ⟨_, hostOps_load_run hlen, congrArg State.start (writeBytes_eq State.reset 0 (encode i ++ rest)), ?_⟩
  have hd : decode (State.reset.loadBytes (encode i ++ rest)).start.fetchBytes = .ok (i, []) := by
    rw [fetchBytes_of_loadBytes rfl hlen, ← List.append_nil (encode i), decode_encode_append]
  exact step_eq_exec rfl hd

/-- Settles O48, clause by clause from what each host operation answers in each place of the sequence. -/
theorem hostSequenceIsResetLoadRun : Obligations.HostSequenceIsResetLoadRun := by
  intro h
  refine ⟨host_refused_of_running, fun hstopped => ?_, fun hstopped hfresh => ⟨?_, ?_⟩,
    fun hstopped hloaded => ⟨?_, ?_⟩, fun hstopped hstarted => ⟨?_, ?_, ?_⟩⟩
  · exact hostReset_next_iff.mpr ⟨hstopped, rfl⟩
  · exact hostRun_refused_of_phase_ne hstopped (by simp [hfresh])
  · exact hostObserve_refused_of_phase_ne hstopped (by simp [hfresh])
  · exact hostRun_next_iff.mpr ⟨hstopped, hloaded, rfl⟩
  · exact hostObserve_refused_of_phase_ne hstopped (by simp [hloaded])
  · exact hostRun_refused_of_phase_ne hstopped (by simp [hstarted])
  · exact hostObserve_next_iff.mpr ⟨hstopped, hstarted, rfl⟩
  · exact hostLoad_refused_of_started hstopped hstarted

end Sys2Proof.Proofs

end

section
/-! The regularities of the opcode values: O4. -/

namespace Sys2Proof.Proofs
open Sys2Proof Sys2Proof.Machine Sys2Proof.Claims

/-! ### The three regularities, each read off the rows of the opcode table (30_encoding.md R58) -/

theorem operandBytes_length_eq_opcodeByte_div (i : Instr) : (operandBytes i).length = (opcodeByte i).toNat / 64 := by
  cases i <;> simp [opcodeByte, operandBytes]

theorem opcodeByte_getLsbD_five (i : Instr) : (opcodeByte i).getLsbD 5 = usesAlu i := by
  cases i <;> simp [opcodeByte, usesAlu]

theorem opcodeByte_getLsbD_four (i : Instr) : (opcodeByte i).getLsbD 4 = setsPc i := by
  cases i <;> simp [opcodeByte, setsPc]

/-- Settles O4: the regularities hold row by row. -/
theorem opcodeBitsTellLengthAluAndControl : Obligations.OpcodeBitsTellLengthAluAndControl := fun i =>
  ⟨operandBytes_length_eq_opcodeByte_div i, opcodeByte_getLsbD_five i, opcodeByte_getLsbD_four i⟩

end Sys2Proof.Proofs

end
